-- ==== Sys2Proof/Word.lean ====
section
/-! DEFINITION. The widths of the unit's values (spec/00_scope.md R8, R11; spec/30_encoding.md R60).
Each of these is something the spec adds to, slices or compares, so each is a bit vector. LED indexes and the
value of an abstract WRITE are plain numbers (R13, R102). -/

namespace Sys2Proof

/-- A 64-bit event word (R60). -/
abbrev EventWord := BitVec 64

/-- The contents of a colour register, `REGW = 24` bits, red most significant (R23). -/
abbrev ColourReg := BitVec 24

/-- A channel's counter, `W = 12` bits (R24). -/
abbrev Counter := BitVec 12

/-- A channel's threshold, `T = 8` bits (R80). -/
abbrev Threshold := BitVec 8

/-- The 32-bit value field of an event word, and of a READ response (R65, R69). -/
abbrev ValueField := BitVec 32

end Sys2Proof
end

