-- ==== Sys2Proof/Machine/Flags.lean ====
section
/-! DEFINITION. The unit has no flags and no condition codes (spec/10_state.md R27). Its whole arithmetic is the
increment of a counter and one unsigned comparison (spec/40_pwm_channel.md R84); both stand here. -/

namespace Sys2Proof.Machine

/-- The counter after one tick: `(c + 1) mod 2 ^ 12`, with nothing signalled at the wrap (R83, R84). -/
def nextCount (k : Counter) : Counter := k + 1#12

/-- The comparator: high while the counter is below the threshold, the threshold zero-extended to the counter's width,
not shifted and not scaled (R81, R82). -/
def comparator (k : Counter) (t : Threshold) : Bool := k.ult (t.setWidth 12)

end Sys2Proof.Machine
end

