-- ==== Sys2Proof/Syntax.lean ====
section
/-! DEFINITION. The events the environment applies to the unit (spec/30_encoding.md R61), one constructor per row of
spec/opcode_table.json. They are the abstract events: an LED index is any natural number (R13), the value of a WRITE
has any width (R102). Which of them have an event word is `Instr.wellFormed`. -/

namespace Sys2Proof

/-- The colours, in the order of a register's bytes from most to least significant (R13). -/
inductive Colour where
  | red
  | green
  | blue
  deriving DecidableEq, Repr

/-- The five events (R61). -/
inductive Instr where
  /-- TICK, the source's `tick()` (R83). -/
  | tick
  /-- WRITE, the source's `write_color(led_index, value)` (R102). -/
  | write (idx value : Nat)
  /-- READ, the source's `read_color(led_index)` (R103). -/
  | read (idx : Nat)
  /-- READ_WIRE, the source's `read_wire(led_index, channel)` (R85). -/
  | readWire (idx : Nat) (c : Colour)
  /-- RESET, system reset (R140). -/
  | reset
  deriving DecidableEq, Repr

end Sys2Proof
end

