-- ==== Sys2Proof/WellFormed.lean ====
section
/-! DEFINITION. The events that have an event word (spec/30_encoding.md R63, R65, R67). An event outside these bounds
is still an event and still has its meaning (R67: "Its WRITE rule still applies"); it only has no word. -/

namespace Sys2Proof

/-- `IDX` has eight bits and its range is not checked any further here (R63). -/
def indexFits (idx : Nat) : Bool := decide (idx ≤ 255)

/-- `VAL` has 32 bits (R65). -/
def valueFits (value : Nat) : Bool := decide (value < 2 ^ 32)

/-- The event has an event word (R67). -/
def Instr.wellFormed : Instr → Bool
  | .tick => true
  | .write idx value => indexFits idx && valueFits value
  | .read idx => indexFits idx
  | .readWire idx _ => indexFits idx
  | .reset => true

end Sys2Proof
end

