-- ==== Sys2Proof/Decode.lean ====
section
/-! DEFINITION. The event word (spec/30_encoding.md): its fields (R60), a decoder total on all 64-bit words (R61 to
R66), the encoder (R67), and the opcode map of section 4 as rows of match and mask. The word is one number of 64 bits;
the spec gives it no byte order (log entry 10). -/

namespace Sys2Proof

/-! ## Fields (R60) -/

/-- `OP`, bits 63:60. -/
def opField (w : EventWord) : BitVec 4 := w.extractLsb' 60 4

/-- Reserved bits 59:48. -/
def reservedHighField (w : EventWord) : BitVec 12 := w.extractLsb' 48 12

/-- `IDX`, bits 47:40. -/
def idxField (w : EventWord) : BitVec 8 := w.extractLsb' 40 8

/-- Reserved bits 39:34. -/
def reservedLowField (w : EventWord) : BitVec 6 := w.extractLsb' 34 6

/-- `CH`, bits 33:32. -/
def chField (w : EventWord) : BitVec 2 := w.extractLsb' 32 2

/-- `VAL`, bits 31:0. -/
def valField (w : EventWord) : ValueField := w.extractLsb' 0 32

/-! ## Decoder -/

/-- Why a word is IllegalEvent: the four cases of R62, in its order. The unit reports one error for all of them (R122);
the names are the model's (log entry 11). -/
inductive IllegalReason where
  /-- R62 case 1: `OP` is 0x5 to 0xF. -/
  | reservedOp
  /-- R62 case 2: a bit of 59:48 or 39:34 is 1. -/
  | reservedBits
  /-- R62 case 3: a field the event does not use is not all zeros. -/
  | unusedField
  /-- R62 case 4: READ_WIRE with `CH = 3`. -/
  | colourThree
  deriving DecidableEq, Repr

/-- What a word decodes to: exactly one event, or IllegalEvent (R66). -/
inductive Decoded where
  | event (i : Instr)
  | illegal (why : IllegalReason)
  deriving DecidableEq, Repr

/-- The colour a `CH` value selects; 3 selects none (R64). -/
def colourOfCode : Nat → Option Colour
  | 0 => some .red
  | 1 => some .green
  | 2 => some .blue
  | _ => none

/-- The event if the fields it does not use are all zeros (R62 case 3). -/
def whenUnusedZero (unusedZero : Bool) (i : Instr) : Decoded :=
  if unusedZero then .event i else .illegal .unusedField

/-- READ_WIRE by its `CH` value (R62 cases 3 and 4). -/
def decodeReadWire (w : EventWord) : Decoded :=
  match colourOfCode (chField w).toNat with
  | some c => whenUnusedZero (valField w == 0) (.readWire (idxField w).toNat c)
  | none => .illegal .colourThree

/-- The decoder, total on 64-bit words (R61 to R66). -/
def decode (w : EventWord) : Decoded :=
  if (opField w).toNat ≥ 5 then .illegal .reservedOp
  else if reservedHighField w ≠ 0 ∨ reservedLowField w ≠ 0 then .illegal .reservedBits
  else match (opField w).toNat with
    | 0 => whenUnusedZero (idxField w == 0 && chField w == 0 && valField w == 0) .tick
    | 1 => whenUnusedZero (chField w == 0) (.write (idxField w).toNat (valField w).toNat)
    | 2 => whenUnusedZero (chField w == 0 && valField w == 0) (.read (idxField w).toNat)
    | 3 => decodeReadWire w
    | 4 => whenUnusedZero (idxField w == 0 && chField w == 0 && valField w == 0) .reset
    | _ => .illegal .reservedOp

/-- The event a decoded word stands for, if it stands for one. -/
def Decoded.event? : Decoded → Option Instr
  | .event i => some i
  | .illegal _ => none

/-! ## Encoder (R67) -/

/-- `CH` of a colour (R64). -/
def Colour.code : Colour → Nat
  | .red => 0
  | .green => 1
  | .blue => 2

/-- R67's formulas. They give the event's word when the event is well-formed, and mean nothing otherwise. -/
def encodeWord : Instr → EventWord
  | .tick => 0#64
  | .write idx value => (0x1#64 <<< 60) ||| (BitVec.ofNat 64 idx <<< 40) ||| BitVec.ofNat 64 value
  | .read idx => (0x2#64 <<< 60) ||| (BitVec.ofNat 64 idx <<< 40)
  | .readWire idx c =>
      (0x3#64 <<< 60) ||| (BitVec.ofNat 64 idx <<< 40) ||| (BitVec.ofNat 64 c.code <<< 32)
  | .reset => 0x4#64 <<< 60

/-- The event's word; an event that is not well-formed has none (R67). -/
def encode (i : Instr) : Option EventWord :=
  if i.wellFormed then some (encodeWord i) else none

/-! ## Opcode map (section 4) -/

/-- One row of the opcode map. -/
structure OpcodeRow where
  mnemonic : String
  matchBits : EventWord
  mask : EventWord
  /-- For READ_WIRE: `CH = 3` is illegal though the mask lets it through. -/
  refusesColourThree : Bool
  deriving DecidableEq, Repr

/-- The rows, as section 4 and opcode_table.json hold them. -/
def opcodeRows : List OpcodeRow :=
  [ ⟨"tick", 0x0000000000000000#64, 0xFFFFFFFFFFFFFFFF#64, false⟩,
    ⟨"write", 0x1000000000000000#64, 0xFFFF00FF00000000#64, false⟩,
    ⟨"read", 0x2000000000000000#64, 0xFFFF00FFFFFFFFFF#64, false⟩,
    ⟨"readwire", 0x3000000000000000#64, 0xFFFF00FCFFFFFFFF#64, true⟩,
    ⟨"reset", 0x4000000000000000#64, 0xFFFFFFFFFFFFFFFF#64, false⟩ ]

/-- The word is an event of the row: "`(word & mask) == match` for its row and, for READ_WIRE, also `CH != 3`". -/
def OpcodeRow.accepts (row : OpcodeRow) (w : EventWord) : Bool :=
  (w &&& row.mask) == row.matchBits && !(row.refusesColourThree && chField w == 3#2)

/-- The row of opcode_table.json an event belongs to. -/
def Instr.mnemonic : Instr → String
  | .tick => "tick"
  | .write _ _ => "write"
  | .read _ => "read"
  | .readWire _ _ => "readwire"
  | .reset => "reset"

/-! ## Words as spec/opcode_table.json numbers their bits -/

/-- The event word whose lowest `nbits` bits are those of `w` and whose other bits are 0. -/
def tableWord (nbits w : Nat) : EventWord := BitVec.ofNat 64 (w % 2 ^ nbits)

/-- The event the decoder reads from a word of the opcode table's numbering. -/
def decodeTableWord (nbits w : Nat) : Option Instr := (decode (tableWord nbits w)).event?

end Sys2Proof
end

