-- ==== Sys2Proof/Machine/ResetValues.lean ====
section
/-! DEFINITION. The values RESET leaves, apart from the state's layout (spec/10_state.md R28, R29). -/

namespace Sys2Proof.Machine

/-- A colour register's reset value, 0x000000 (R29, the spec's own decision D6, not the source's; log entry 5). -/
def resetColour : ColourReg := 0x000000#24

/-- A counter's reset value, 0 (R28, derived by the spec from the source's end-to-end scenario, D7; log entry 6). -/
def resetCount : Counter := 0#12

end Sys2Proof.Machine
end

