-- ==== Sys2Proof/Machine/State.lean ====
section
/-! DEFINITION. The state: the unit's own state, exactly the two arrays of spec/10_state.md R20, and beside it the two
lists through which the environment and the unit meet: the events the environment has still to apply (R48) and the
responses the unit has given (spec/30_encoding.md R69). Plain data throughout. -/

namespace Sys2Proof.Machine

/-- One value per colour (R13). -/
structure Rgb (α : Type) where
  red : α
  green : α
  blue : α
  deriving DecidableEq, Repr

/-- One value per LED, 0 to 3 (R13). -/
structure PerLed (α : Type) where
  led0 : α
  led1 : α
  led2 : α
  led3 : α
  deriving DecidableEq, Repr

/-- The unit's whole state (R20): thresholds and wires are computed from it (R21), and it has no program counter, flag,
mode, enable or error bit (R26, R27), no buffer and no copy of a threshold (R31). -/
structure UnitState where
  /-- `LED0_COLOR` to `LED3_COLOR`, 24 bits each (R23). -/
  ledColor : PerLed ColourReg
  /-- `CTR[i][c]`, the twelve counters, 12 bits each (R24). -/
  ctr : PerLed (Rgb Counter)
  deriving DecidableEq, Repr

/-- The twelve wires at one moment (R86, R108). -/
abbrev Sample := PerLed (Rgb Bool)

/-- The two errors the unit reports (spec/60_exceptions.md R120). An error carries and records no value. -/
inductive ErrorCode where
  | invalidLedIndex
  | illegalEvent
  deriving DecidableEq, Repr

/-- What an event returns to the agent that applied it (R69). -/
inductive Response where
  /-- `Ok`: a WRITE or a RESET was applied. -/
  | ok
  /-- `Sample(s)`: the tick sample of a TICK (R86). -/
  | sample (wires : Sample)
  /-- `Value(r)`: a register's 24 bits, zero-extended to 32 (D11). -/
  | value (r : ValueField)
  /-- `Bit(b)`: a wire's level. -/
  | bit (b : Bool)
  /-- `Err(E)` (R121, R122). -/
  | err (e : ErrorCode)
  deriving DecidableEq, Repr

/-- An event as the environment applies it: as a 64-bit event word, legal or not, or straight from the abstract type
(spec/30_encoding.md section 1, R67, R122). -/
inductive Applied where
  | word (w : EventWord)
  | event (i : Instr)
  deriving DecidableEq, Repr

/-- The state of the machine. -/
structure State where
  /-- The unit (R20). -/
  unit : UnitState
  /-- The model's own: the events the environment has still to apply, in the single total order of R48, next one
  first. Any list is possible, so every interleaving of bus events with TICKs is a run (log entry 1). -/
  pending : List Applied
  /-- The model's own: the responses given so far, oldest first (R69; log entry 2). No event reads it. -/
  responses : List Response
  deriving DecidableEq, Repr

/-- Why the machine stops. The unit itself has no fault state and no event that stops it (R27, R123). -/
inductive Fault where
  /-- Raised by `step` when the environment has no event left to apply (R141: a model "simply stops applying events"):
  no event, no step. Safe: the unit goes on standing still (R147), and nothing is claimed of it (log entry 3). -/
  | noEvent
  deriving DecidableEq, Repr

/-- Why an event has no meaning. -/
inductive Refusal where
  /-- Raised by an arm of `exec` whose event has no meaning yet; no arm does so. Safe. -/
  | notModelled (mnemonic : String)
  deriving DecidableEq, Repr

/-- The unit's reset state (R140, R141). -/
def UnitState.reset : UnitState where
  ledColor := ⟨resetColour, resetColour, resetColour, resetColour⟩
  ctr :=
    ⟨⟨resetCount, resetCount, resetCount⟩, ⟨resetCount, resetCount, resetCount⟩,
      ⟨resetCount, resetCount, resetCount⟩, ⟨resetCount, resetCount, resetCount⟩⟩

/-- The machine right after construction: the unit reset (R141), no event applied yet and so no response given. -/
def State.reset : State where
  unit := UnitState.reset
  pending := []
  responses := []

end Sys2Proof.Machine
end

