-- ==== Sys2Proof/Machine/Operands.lean ====
section
/-! DEFINITION. Operands at execution: the index of an LED, the byte a colour selects, the width a value is stored and
answered with, and the event an applied item stands for. -/

namespace Sys2Proof.Machine

/-- The LED an index names; only 0 to 3 name one, and no index is clamped or masked (R13, R121). -/
def ledOf? (idx : Nat) : Option (Fin 4) :=
  if h : idx < 4 then some ⟨idx, h⟩ else none

/-- `field(r, c)`: the byte of a register that a colour selects (R100). -/
def field (r : ColourReg) : Colour → Threshold
  | .red => r.extractLsb' 16 8
  | .green => r.extractLsb' 8 8
  | .blue => r.extractLsb' 0 8

/-- What a WRITE of a value of any width stores: its low 24 bits, with no error and no signal (R104). -/
def storedColour (value : Nat) : ColourReg := BitVec.ofNat 24 value

/-- What a READ answers: the register's 24 bits, zero-extended to 32 (R69, D11). -/
def readValue (r : ColourReg) : ValueField := r.setWidth 32

/-- The event an applied item stands for: a word's decoding, or the abstract event itself; none for IllegalEvent
(R66, R122). -/
def Applied.event? : Applied → Option Instr
  | .word w => (decode w).event?
  | .event i => some i

/-- The number an error is named by in a log (R120, D12). -/
def ErrorCode.number : ErrorCode → Nat
  | .invalidLedIndex => 1
  | .illegalEvent => 2

end Sys2Proof.Machine
end

