-- ==== Sys2Proof/Machine/Ops.lean ====
section
/-! DEFINITION. The named operations over the state: access to registers and counters, the derived threshold and wire,
the tick sample, giving a response, raising an error, and fetching the next applied event. -/

namespace Sys2Proof.Machine

/-! ## Access by LED and colour -/

/-- The value of one LED. -/
def PerLed.get {α : Type} (p : PerLed α) : Fin 4 → α
  | 0 => p.led0
  | 1 => p.led1
  | 2 => p.led2
  | 3 => p.led3

/-- The value of one LED replaced. -/
def PerLed.set {α : Type} (p : PerLed α) (i : Fin 4) (v : α) : PerLed α :=
  match i with
  | 0 => { p with led0 := v }
  | 1 => { p with led1 := v }
  | 2 => { p with led2 := v }
  | 3 => { p with led3 := v }

/-- One value per LED, by a rule. -/
def PerLed.ofFn {α : Type} (f : Fin 4 → α) : PerLed α := ⟨f 0, f 1, f 2, f 3⟩

/-- The value of one colour. -/
def Rgb.get {α : Type} (p : Rgb α) : Colour → α
  | .red => p.red
  | .green => p.green
  | .blue => p.blue

/-- The value of one colour replaced. -/
def Rgb.set {α : Type} (p : Rgb α) (c : Colour) (v : α) : Rgb α :=
  match c with
  | .red => { p with red := v }
  | .green => { p with green := v }
  | .blue => { p with blue := v }

/-- One value per colour, by a rule. -/
def Rgb.ofFn {α : Type} (f : Colour → α) : Rgb α := ⟨f .red, f .green, f .blue⟩

/-- One value per channel `(i, c)`, by a rule (R101). -/
def perChannel {α : Type} (f : Fin 4 → Colour → α) : PerLed (Rgb α) :=
  PerLed.ofFn fun i => Rgb.ofFn (f i)

/-- The value of channel `(i, c)`. -/
def channel {α : Type} (p : PerLed (Rgb α)) (i : Fin 4) (c : Colour) : α := (p.get i).get c

/-- `LED_COLOR[i]` (R12). -/
def UnitState.colour (u : UnitState) (i : Fin 4) : ColourReg := u.ledColor.get i

/-- `CTR[i][c]` (R12). -/
def UnitState.count (u : UnitState) (i : Fin 4) (c : Colour) : Counter := channel u.ctr i c

/-- `LED_COLOR[i] <- v`, all 24 bits at once (R47). -/
def UnitState.setColour (u : UnitState) (i : Fin 4) (v : ColourReg) : UnitState :=
  { u with ledColor := u.ledColor.set i v }

/-- `CTR[i][c] <- v`. -/
def UnitState.setCount (u : UnitState) (i : Fin 4) (c : Colour) (v : Counter) : UnitState :=
  { u with ctr := u.ctr.set i ((u.ctr.get i).set c v) }

/-! ## What is derived from the unit's state (R21) -/

/-- `thr(i, c)`: the threshold, read live from its register field (R80, R101). -/
def UnitState.threshold (u : UnitState) (i : Fin 4) (c : Colour) : Threshold := field (u.colour i) c

/-- `WIRE(i, c)`: the output line of a channel, a function of the current state in every state (R82, R108). -/
def UnitState.wire (u : UnitState) (i : Fin 4) (c : Colour) : Bool :=
  comparator (u.count i c) (u.threshold i c)

/-- The twelve wires as they stand (R86). -/
def UnitState.sample (u : UnitState) : Sample := perChannel u.wire

/-! ## Advancing the counters -/

/-- One channel advanced by one count. -/
def UnitState.advanceChannel (u : UnitState) (ch : Fin 4 × Colour) : UnitState :=
  u.setCount ch.1 ch.2 (nextCount (u.count ch.1 ch.2))

/-- All twelve channels advanced at once (R83). -/
def UnitState.advance (u : UnitState) : UnitState :=
  { u with ctr := perChannel fun i c => nextCount (u.count i c) }

/-- The twelve channels, in the order `L0=RGB L1=RGB L2=RGB L3=RGB` (R101, D21). -/
def allChannels : List (Fin 4 × Colour) :=
  [(0, .red), (0, .green), (0, .blue), (1, .red), (1, .green), (1, .blue),
   (2, .red), (2, .green), (2, .blue), (3, .red), (3, .green), (3, .blue)]

/-! ## Changing the machine's state -/

/-- The unit's state replaced. -/
def State.setUnit (s : State) (u : UnitState) : State := { s with unit := u }

/-- The events still to be applied replaced. -/
def State.setPending (s : State) (evs : List Applied) : State := { s with pending := evs }

/-- `respond(x)`: the event ends with one response (R12, R69). -/
def State.respond (s : State) (r : Response) : State := { s with responses := s.responses ++ [r] }

/-- `raise E`: the event ends with the error response `E` and nothing else changes: nothing is saved, no mode changes,
nothing is recorded in the unit (R12, R125). This is the unit's one way of reporting an error; it has no trap and no
return from one (R126). -/
def State.raise (s : State) (e : ErrorCode) : State := s.respond (.err e)

/-- The index check of WRITE, READ and READ_WIRE, made before any state is read or written (R121, R124): the event's
effect on the LED the index names, or InvalidLedIndex. -/
def withLed (idx : Nat) (s : State) (effect : Fin 4 → State) : State :=
  match ledOf? idx with
  | some i => effect i
  | none => s.raise .invalidLedIndex

/-! ## Fetching the next event (R48) -/

/-- The next applied event, and the state with that event taken; none if the environment applies no event. -/
def State.fetch (s : State) : Option (Applied × State) :=
  match s.pending with
  | [] => none
  | a :: rest => some (a, s.setPending rest)

/-- The state in which the environment's next event is `a`, before all it has still to apply. -/
def State.apply (s : State) (a : Applied) : State := s.setPending (a :: s.pending)

end Sys2Proof.Machine
end

