-- ==== Sys2Proof/Machine/LedController.lean ====
section
/-! DEFINITION. The events of RgbLedController (spec/41_led_controller.md): WRITE and READ. -/

namespace Sys2Proof.Machine

/-- WRITE (R102): the low 24 bits of the value replace the register; no counter is written. -/
def execWrite (idx value : Nat) (s : State) : Host.Outcome State Fault Refusal :=
  .next (withLed idx s fun i => (s.setUnit (s.unit.setColour i (storedColour value))).respond .ok)

/-- READ (R103): the value the register holds; no state of the unit is written. -/
def execRead (idx : Nat) (s : State) : Host.Outcome State Fault Refusal :=
  .next (withLed idx s fun i => s.respond (.value (readValue (s.unit.colour i))))

end Sys2Proof.Machine
end

