-- ==== Sys2Proof/Machine/PwmChannel.lean ====
section
/-! DEFINITION. The events of PwmChannel (spec/40_pwm_channel.md): TICK and READ_WIRE. -/

namespace Sys2Proof.Machine

/-- TICK (R83): the tick sample is taken, then every counter advances by one; the response is the sample. -/
def execTick (s : State) : Host.Outcome State Fault Refusal :=
  .next ((s.setUnit s.unit.advance).respond (.sample s.unit.sample))

/-- READ_WIRE (R85): the wire of channel `(idx, c)` as it stands; no state of the unit is written. -/
def execReadWire (idx : Nat) (c : Colour) (s : State) : Host.Outcome State Fault Refusal :=
  .next (withLed idx s fun i => s.respond (.bit (s.unit.wire i c)))

end Sys2Proof.Machine
end

