-- ==== Sys2Proof/Machine/SystemReset.lean ====
section
/-! DEFINITION. System reset (spec/70_reset_and_hazards.md). -/

namespace Sys2Proof.Machine

/-- RESET (R140): every colour register and every counter at its reset value. It resets the unit, not its environment:
the events still to be applied and the responses already given stand (log entry 20). -/
def execReset (s : State) : Host.Outcome State Fault Refusal :=
  .next ((s.setUnit UnitState.reset).respond .ok)

end Sys2Proof.Machine
end

