-- ==== Sys2Proof/Machine/Dispatch.lean ====
section
/-! DEFINITION. One arm per event (spec/30_encoding.md R61). -/

namespace Sys2Proof.Machine

/-- What one event does to the state, once it is decoded and taken from the pending events. -/
def exec (i : Instr) (s : State) : Host.Outcome State Fault Refusal :=
  match i with
  | .tick => Sys2Proof.Machine.execTick s
  | .write idx value => Sys2Proof.Machine.execWrite idx value s
  | .read idx => Sys2Proof.Machine.execRead idx s
  | .readWire idx c => Sys2Proof.Machine.execReadWire idx c s
  | .reset => Sys2Proof.Machine.execReset s

end Sys2Proof.Machine
end

