-- ==== Sys2Proof/Machine/Step.lean ====
section
/-! DEFINITION. One step: the unit applies the environment's next event, whole (spec/20_memory.md R47, R48). -/

namespace Sys2Proof.Machine

/-- One step. The next applied item is taken from the pending events. If it stands for an event, the step is that
event's; if it is a word the decoder rejects, the event ends with `Err(IllegalEvent)` and the index in it is never
looked at (R122, R124). With no event there is no step (log entry 3). -/
def step (s : State) : Host.Outcome State Fault Refusal :=
  match s.fetch with
  | none => .fault .noEvent
  | some (a, rest) =>
    match a.event? with
    | some i => exec i rest
    | none => .next (rest.raise .illegalEvent)

/-- `s` with the event word made of the lowest `nbits` bits of `w` as the environment's next event. The unit has no
program memory: a program is a list of applied events, and this stands for the environment applying one (log entry 4). -/
def State.withFetchWord (s : State) (nbits w : Nat) : State := s.apply (.word (tableWord nbits w))

end Sys2Proof.Machine
end

