-- ==== Sys2Proof/Machine/Assembler.lean ====
section
/-! DEFINITION. The spec's text form of events (spec/30_encoding.md R70), its pseudo-instructions (R71), and the text of a
tick sample (spec/41_led_controller.md R101, D21). Text is a list of characters. The syntax has no semantics of its own
(D3); what R70 leaves open of it is log entry 18. -/

namespace Sys2Proof.Machine

abbrev Text := List Char

/-! ## Words of a line -/

/-- Blank space between words. -/
def isBlank (ch : Char) : Bool := ch == ' ' || ch == '\t'

/-- A word gathered in reverse, put before the words after it; nothing gathered is no word. -/
def pushWord (gathered : Text) (rest : List Text) : List Text :=
  if gathered.isEmpty then rest else gathered.reverse :: rest

/-- The words of a line: blank space separates them, a comma is a word of its own, and a `;` starts a comment that runs
to the end of the line (R70). -/
def lineWords : Text → Text → List Text
  | [], gathered => pushWord gathered []
  | ch :: rest, gathered =>
    if ch == ';' then pushWord gathered []
    else if isBlank ch then pushWord gathered (lineWords rest [])
    else if ch == ',' then pushWord gathered ([','] :: lineWords rest [])
    else lineWords rest (ch :: gathered)

/-! ## Numbers and colours -/

/-- A decimal digit. -/
def decimalDigit? (ch : Char) : Option Nat :=
  if 48 ≤ ch.toNat ∧ ch.toNat ≤ 57 then some (ch.toNat - 48) else none

/-- A hexadecimal digit, of either case. -/
def hexDigit? (ch : Char) : Option Nat :=
  if 65 ≤ ch.toNat ∧ ch.toNat ≤ 70 then some (ch.toNat - 55)
  else if 97 ≤ ch.toNat ∧ ch.toNat ≤ 102 then some (ch.toNat - 87)
  else decimalDigit? ch

/-- Digits read from most to least significant. -/
def readDigits (base : Nat) (digit? : Char → Option Nat) : Nat → Text → Option Nat
  | value, [] => some value
  | value, ch :: rest =>
    match digit? ch with
    | some d => readDigits base digit? (value * base + d) rest
    | none => none

/-- A decimal number. -/
def decimal? (t : Text) : Option Nat := if t.isEmpty then none else readDigits 10 decimalDigit? 0 t

/-- The digits of a `0x` number. -/
def hexDigits? : Text → Option Text
  | '0' :: 'x' :: digits => if digits.isEmpty then none else some digits
  | _ => none

/-- A decimal or a `0x` hexadecimal number (R70). -/
def number? (t : Text) : Option Nat :=
  match hexDigits? t with
  | some digits => readDigits 16 hexDigit? 0 digits
  | none => decimal? t

/-- The colour letters (R13). -/
def colourLetter? : Text → Option Colour
  | ['r'] => some .red
  | ['g'] => some .green
  | ['b'] => some .blue
  | _ => none

/-- A 64-bit word written `0x` with sixteen digits (R70). -/
def word64? (t : Text) : Option EventWord :=
  match hexDigits? t with
  | some digits => if digits.length = 16 then (readDigits 16 hexDigit? 0 digits).map (BitVec.ofNat 64) else none
  | none => none

/-! ## Pseudo-instructions (R71) -/

/-- `tick N`: `N` copies of `tick`. -/
def expandTicks (n : Nat) : List Instr := List.replicate n .tick

/-- `setrgb IDX, R, G, B`: one `write` of the packed value; rejected unless each of R, G and B is in 0..255. -/
def expandSetrgb (idx r g b : Nat) : Option (List Instr) :=
  if r ≤ 255 ∧ g ≤ 255 ∧ b ≤ 255 then some [.write idx ((r <<< 16) ||| (g <<< 8) ||| b)] else none

/-- `off IDX`: `write IDX, 0`. -/
def expandOff (idx : Nat) : List Instr := [.write idx 0]

/-! ## Lines -/

def wordTick : Text := ['t', 'i', 'c', 'k']
def wordWrite : Text := ['w', 'r', 'i', 't', 'e']
def wordRead : Text := ['r', 'e', 'a', 'd']
def wordReadwire : Text := ['r', 'e', 'a', 'd', 'w', 'i', 'r', 'e']
def wordReset : Text := ['r', 'e', 's', 'e', 't']
def wordOff : Text := ['o', 'f', 'f']
def wordSetrgb : Text := ['s', 'e', 't', 'r', 'g', 'b']
def wordDotWord : Text := ['.', 'w', 'o', 'r', 'd']

/-- The event words of a list of events; none if one of them has no word. -/
def encodeAll : List Instr → Option (List EventWord)
  | [] => some []
  | i :: rest =>
    match encode i, encodeAll rest with
    | some w, some ws => some (w :: ws)
    | _, _ => none

/-- A line of one word. -/
def assembleBare (name : Text) : Option (List EventWord) :=
  if name = wordTick then encodeAll [.tick]
  else if name = wordReset then encodeAll [.reset]
  else none

/-- A line of a name and one operand. -/
def assembleOne (name a : Text) : Option (List EventWord) :=
  if name = wordTick then (decimal? a).bind fun n => encodeAll (expandTicks n)
  else if name = wordRead then (decimal? a).bind fun idx => encodeAll [.read idx]
  else if name = wordOff then (decimal? a).bind fun idx => encodeAll (expandOff idx)
  else if name = wordDotWord then (word64? a).map fun w => [w]
  else none

/-- A line of a name and two operands. -/
def assembleTwo (name a b : Text) : Option (List EventWord) :=
  if name = wordWrite then
    (decimal? a).bind fun idx => (number? b).bind fun value => encodeAll [.write idx value]
  else if name = wordReadwire then
    (decimal? a).bind fun idx => (colourLetter? b).bind fun c => encodeAll [.readWire idx c]
  else none

/-- A line of a name and four operands. -/
def assembleFour (name a r g b : Text) : Option (List EventWord) :=
  if name = wordSetrgb then
    (decimal? a).bind fun idx => (number? r).bind fun r => (number? g).bind fun g => (number? b).bind fun b =>
      (expandSetrgb idx r g b).bind encodeAll
  else none

/-- The event words one line of text stands for; none if the assembler rejects the line (R70, R71). -/
def assembleLine (line : Text) : Option (List EventWord) :=
  match lineWords line [] with
  | [] => some []
  | [name] => assembleBare name
  | [name, a] => assembleOne name a
  | [name, a, [','], b] => assembleTwo name a b
  | [name, a, [','], r, [','], g, [','], b] => assembleFour name a r g b
  | _ => none

/-- The event words of a program's lines, in order. R71 says the assembler rejects a line and leaves open what becomes of the
program's other lines; DESIGN CHOICE: a program with a rejected line has no words at all (log entry 18). -/
def assembleLines : List Text → Option (List EventWord)
  | [] => some []
  | line :: rest =>
    match assembleLine line, assembleLines rest with
    | some ws, some more => some (ws ++ more)
    | _, _ => none

/-! ## Writing events and samples as text -/

/-- The digit of a number below ten. -/
def digitChar (d : Nat) : Char := Char.ofNat (48 + d)

/-- The decimal digits of a number, before the digits after them. The first argument bounds the digits. -/
def decimalDigits : Nat → Nat → Text → Text
  | 0, _, after => after
  | bound + 1, n, after =>
    if n < 10 then digitChar n :: after else decimalDigits bound (n / 10) (digitChar (n % 10) :: after)

/-- A number in decimal. -/
def decimalText (n : Nat) : Text := decimalDigits (n + 1) n []

/-- A colour's letter (R13). -/
def colourLetter : Colour → Char
  | .red => 'r'
  | .green => 'g'
  | .blue => 'b'

/-- An event's line of text (R70), its numbers in decimal. -/
def eventText : Instr → Text
  | .tick => wordTick
  | .write idx value => wordWrite ++ ' ' :: decimalText idx ++ ',' :: ' ' :: decimalText value
  | .read idx => wordRead ++ ' ' :: decimalText idx
  | .readWire idx c => wordReadwire ++ ' ' :: decimalText idx ++ ',' :: ' ' :: [colourLetter c]
  | .reset => wordReset

/-- A wire's level as a digit. -/
def levelChar (b : Bool) : Char := if b then '1' else '0'

/-- One LED's wires, `L0=RGB`. -/
def ledText (number : Char) (wires : Rgb Bool) : Text :=
  ['L', number, '=', levelChar wires.red, levelChar wires.green, levelChar wires.blue]

/-- A tick sample, `L0=RGB L1=RGB L2=RGB L3=RGB` (D21). -/
def sampleText (wires : Sample) : Text :=
  ledText '0' wires.led0 ++ ' ' :: ledText '1' wires.led1 ++ ' ' :: ledText '2' wires.led2 ++
    ' ' :: ledText '3' wires.led3

end Sys2Proof.Machine
end

