-- ==== Sys2Proof/Config.lean ====
section
/-! DEFINITION. What is fixed when the unit is built (spec/00_scope.md R8) and what the source leaves open (R9).
R22 makes both configuration of the model, not state. No rule leaves a value undefined, so there is no free value
here: the open parameters are arguments (`Params`) of the one place that reads them, the bus bridge's contract. -/

namespace Sys2Proof.Config

/-- `W`: the counter width in bits (R8). -/
abbrev counterWidth : Nat := 12

/-- `T`: the threshold width in bits (R8). -/
abbrev thresholdWidth : Nat := 8

/-- `NLED`: the number of colour registers and of logical LEDs (R8). -/
abbrev ledCount : Nat := 4

/-- `NCOLOR`: channels per LED (R8). -/
abbrev coloursPerLed : Nat := 3

/-- `NCHAN`: the number of channels, `NLED * NCOLOR` (R8). -/
abbrev channelCount : Nat := ledCount * coloursPerLed

/-- `REGW`: the width of a colour register, `3 * T` (R8). -/
abbrev registerWidth : Nat := coloursPerLed * thresholdWidth

/-- `PERIOD`: the counter period in ticks, `2 ^ W` (R8). -/
abbrev period : Nat := 2 ^ counterWidth

/-- The parameters the source leaves open (R9). A claim that reads one is stated for every value of it. -/
structure Params where
  /-- `LED_COLOR_ADDR(0)` to `LED_COLOR_ADDR(3)`: the bus addresses (D9). -/
  ledColorAddr0 : Nat
  ledColorAddr1 : Nat
  ledColorAddr2 : Nat
  ledColorAddr3 : Nat
  /-- `BUS_WIDTH`: the bridge's data width in bits; no rule reads it (D10). -/
  busWidth : Nat
  /-- `TICK_RATE`: the frequency of the tick signal; no rule reads it (D17, R146). -/
  tickRate : Nat
  deriving DecidableEq, Repr

end Sys2Proof.Config
end

