-- ==== Sys2Proof/Machine/Bridge.lean ====
section
/-! DEFINITION. The contract at the unit's bus side (spec/20_memory.md R41 to R45, D9, D10). The bridge itself is out of
scope (R6); what stands here is only which bus access is which event, for every assignment of addresses. `step` does not
use this file: the unit sees an index, never an address. -/

namespace Sys2Proof.Machine

/-- An access on the bus, before the bridge decodes its address. -/
inductive BusAccess where
  /-- `bytes` bytes of `value` written at `addr`. -/
  | write (addr bytes value : Nat)
  /-- `bytes` bytes read at `addr`. -/
  | read (addr bytes : Nat)
  deriving DecidableEq, Repr

/-- What a bus access is at the unit's boundary. -/
inductive BridgeAnswer where
  /-- The unit's event. -/
  | event (i : Instr)
  /-- An access to a colour register that does not move the whole of it: refused (R43, D10). -/
  | notWholeRegister
  /-- An address that is none of the four: the bridge's business, not the unit's (R41). -/
  | notARegister
  deriving DecidableEq, Repr

/-- The four addresses are different (D9: the parameter is injective). -/
abbrev addressesDistinct (p : Config.Params) : Prop :=
  [p.ledColorAddr0, p.ledColorAddr1, p.ledColorAddr2, p.ledColorAddr3].Nodup

/-- `LED_COLOR_ADDR(i)` (R9). -/
def ledColorAddr (p : Config.Params) : Fin 4 → Nat
  | 0 => p.ledColorAddr0
  | 1 => p.ledColorAddr1
  | 2 => p.ledColorAddr2
  | 3 => p.ledColorAddr3

/-- The bytes of a whole colour register (R12, R42). -/
def registerBytes : Nat := 3

/-- The register at a bus address. -/
def registerAt? (p : Config.Params) (addr : Nat) : Option (Fin 4) :=
  if addr = p.ledColorAddr0 then some 0
  else if addr = p.ledColorAddr1 then some 1
  else if addr = p.ledColorAddr2 then some 2
  else if addr = p.ledColorAddr3 then some 3
  else none

/-- The answer for an access of `bytes` bytes at `addr` that, on a whole register, is the event given. -/
def wholeRegisterOnly (p : Config.Params) (addr bytes : Nat) (event : Fin 4 → Instr) : BridgeAnswer :=
  match registerAt? p addr with
  | none => .notARegister
  | some i => if bytes = registerBytes then .event (event i) else .notWholeRegister

/-- Which event a bus access is (R12, R41, R43). -/
def busEvent (p : Config.Params) : BusAccess → BridgeAnswer
  | .write addr bytes value => wholeRegisterOnly p addr bytes fun i => .write i.val value
  | .read addr bytes => wholeRegisterOnly p addr bytes fun i => .read i.val

end Sys2Proof.Machine
end

