-- ==== Sys2Proof/Machine/Refinements.lean ====
section
/-! DEFINITION. Other machines the spec describes beside the unit, for statements that compare them with it: one counter
shared by the twelve channels (spec/10_state.md R30), a copy of the threshold taken at each tick (R80, D8), and one edge
of a clocked implementation (spec/70_reset_and_hazards.md R145). The unit's own meanings use none of this. -/

namespace Sys2Proof.Machine

/-! ## One shared counter (R30) -/

/-- The state with one counter for all twelve channels. -/
structure SharedUnit where
  ledColor : PerLed ColourReg
  count : Counter
  deriving DecidableEq, Repr

/-- The unit's state it stands for. -/
def SharedUnit.expand (v : SharedUnit) : UnitState where
  ledColor := v.ledColor
  ctr := perChannel fun _ _ => v.count

/-- What an event does to it, and its response. -/
def sharedApply (i : Instr) (v : SharedUnit) : SharedUnit × Response :=
  match i with
  | .tick =>
      ({ v with count := nextCount v.count },
       .sample (perChannel fun k c => comparator v.count (field (v.ledColor.get k) c)))
  | .write idx value =>
      match ledOf? idx with
      | some k => ({ v with ledColor := v.ledColor.set k (storedColour value) }, .ok)
      | none => (v, .err .invalidLedIndex)
  | .read idx =>
      match ledOf? idx with
      | some k => (v, .value (readValue (v.ledColor.get k)))
      | none => (v, .err .invalidLedIndex)
  | .readWire idx c =>
      match ledOf? idx with
      | some k => (v, .bit (comparator v.count (field (v.ledColor.get k) c)))
      | none => (v, .err .invalidLedIndex)
  | .reset =>
      ({ ledColor := ⟨resetColour, resetColour, resetColour, resetColour⟩, count := resetCount }, .ok)

/-! ## A copy of the threshold taken at each tick (R80, D8) -/

/-- The unit with a stored threshold for each channel. -/
structure CopyUnit where
  unit : UnitState
  copied : PerLed (Rgb Threshold)
  deriving DecidableEq, Repr

/-- The thresholds as the registers give them now. -/
def UnitState.thresholds (u : UnitState) : PerLed (Rgb Threshold) := perChannel u.threshold

/-- The copies are those of the registers as they stand: no WRITE has changed one since the last TICK. -/
def CopyUnit.current (v : CopyUnit) : Prop := v.copied = v.unit.thresholds

/-- What an event does to it, and its response: TICK copies the thresholds before it compares, READ_WIRE compares with
the copy. -/
def copyApply (i : Instr) (v : CopyUnit) : CopyUnit × Response :=
  match i with
  | .tick =>
      let copied := v.unit.thresholds
      ({ unit := v.unit.advance, copied := copied },
       .sample (perChannel fun k c => comparator (v.unit.count k c) (channel copied k c)))
  | .write idx value =>
      match ledOf? idx with
      | some k => ({ v with unit := v.unit.setColour k (storedColour value) }, .ok)
      | none => (v, .err .invalidLedIndex)
  | .read idx =>
      match ledOf? idx with
      | some k => (v, .value (readValue (v.unit.colour k)))
      | none => (v, .err .invalidLedIndex)
  | .readWire idx c =>
      match ledOf? idx with
      | some k => (v, .bit (comparator (v.unit.count k c) (channel v.copied k c)))
      | none => (v, .err .invalidLedIndex)
  | .reset => ({ unit := UnitState.reset, copied := UnitState.reset.thresholds }, .ok)

/-! ## One clock edge (R145, D18) -/

/-- One edge of a synchronous implementation on which a bus write may land: the next counters and the next register are
all computed from the old state, and the output during the clock period the edge ends used the old register. -/
def clockEdge (access : Option (Fin 4 × Nat)) (u : UnitState) : UnitState × Sample :=
  ({ ledColor :=
       match access with
       | some (i, value) => u.ledColor.set i (storedColour value)
       | none => u.ledColor
     ctr := perChannel fun i c => nextCount (u.count i c) },
   perChannel u.wire)

end Sys2Proof.Machine
end

