-- ==== Sys2Proof/Safety.lean ====
section
/-! DEFINITION. Runs and what counts as a good one, in the terms the statements use. -/

namespace Sys2Proof.Machine

/-! ## Runs -/

/-- `n` steps, stopping at the first that does not answer a next state. -/
def stepMany : Nat → State → Host.Outcome State Fault Refusal
  | 0, s => .next s
  | n + 1, s =>
    match step s with
    | .next t => stepMany n t
    | .fault r => .fault r
    | .refused r => .refused r

/-- The run in which the environment applies exactly `evs`, in that order (R48). -/
def play (evs : List Applied) (s : State) : Host.Outcome State Fault Refusal :=
  stepMany evs.length (s.setPending evs)

/-- The applied item is a TICK, as a word or as the abstract event. -/
def Applied.isTick (a : Applied) : Bool := a.event? == some .tick

/-- The applied item is a RESET. -/
def Applied.isReset (a : Applied) : Bool := a.event? == some .reset

/-- The applied item is a WRITE to register `i`. -/
def Applied.writesTo (i : Fin 4) (a : Applied) : Bool :=
  match a.event? with
  | some (.write idx _) => idx == i.val
  | _ => false

/-- The applied item ends with an error: a word that is IllegalEvent, or an event that names no LED (R120). -/
def Applied.failing (a : Applied) : Bool :=
  match a.event? with
  | none => true
  | some (.write idx _) => decide (3 < idx)
  | some (.read idx) => decide (3 < idx)
  | some (.readWire idx _) => decide (3 < idx)
  | some .tick => false
  | some .reset => false

/-! ## Reading responses -/

/-- The response is an error (R120). -/
def Response.isError : Response → Bool
  | .err _ => true
  | _ => false

/-- The response is a tick sample in which the wire of channel `(i, c)` is high. -/
def Response.showsHigh (i : Fin 4) (c : Colour) : Response → Bool
  | .sample wires => channel wires i c
  | _ => false

/-- No event so far ended with an error. D16 has a model of the requesting program treat an error response as that
program's fault: for such a program this is the condition of a run without fault. -/
def State.errorFree (s : State) : Bool := s.responses.all fun r => !r.isError

/-- The byte a colour selects, on numbers: R is bits 23:16, G is 15:8, B is 7:0 (R23, R44). -/
def colourByte (r : Nat) : Colour → Nat
  | .red => r / 2 ^ 16 % 256
  | .green => r / 2 ^ 8 % 256
  | .blue => r % 256

/-! ## The invariant -/

/-- All twelve counters hold the same value (R30). -/
abbrev UnitState.CountersAgree (u : UnitState) : Prop :=
  u.ctr = perChannel fun _ _ => u.ctr.led0.red

end Sys2Proof.Machine
end

