-- ==== Sys2Proof/Certificates/Slice0/Obligations.lean ====
section
/-! DEFINITION. The statements for the provers. Where a statement rests on a choice of the spec's own (a decision D<n> of
spec/92_eei_decisions.md, or a rule the spec marks as derived) or of the model's own (log entry <n>), its docstring
says so. -/

open Sys2Proof Sys2Proof.Machine

/-! ## Event words -/

/-- Words of spec/95_test_vectors.md section 2.1 decode as listed there. The encoding is the spec's own (D2, D5). -/
def Obligations.ListedWordsDecodeAsListed : Prop :=
  decode 0x0000000000000000#64 = .event .tick ∧
  decode 0x100002007F000080#64 = .event (.write 2 0x7F000080) ∧
  decode 0x1000FF0000000000#64 = .event (.write 255 0) ∧
  decode 0x2000010000000000#64 = .event (.read 1) ∧
  decode 0x3000000100000000#64 = .event (.readWire 0 .green) ∧
  decode 0x3000030200000000#64 = .event (.readWire 3 .blue) ∧
  decode 0x4000000000000000#64 = .event .reset ∧
  (∃ why, decode 0x5000000000000000#64 = .illegal why) ∧
  (∃ why, decode 0x1000000100000000#64 = .illegal why) ∧
  (∃ why, decode 0x3000000300000000#64 = .illegal why)

/-- Every well-formed event, with every operand at every value its field admits, has a word, and that word decodes to
it (the spec's own derivation, R66, of its own encoding, D2). -/
def Obligations.EncodedEventsDecodeBack : Prop :=
  ∀ i : Instr, i.wellFormed = true → ∃ w, encode i = some w ∧ decode w = .event i

/-- Every word that decodes to an event is that event's word, so no two words stand for one event (the spec's own
derivation, R66, of its own encoding, D2). -/
def Obligations.DecodedWordsEncodeBack : Prop :=
  ∀ (w : EventWord) (i : Instr), decode w = .event i → i.wellFormed = true ∧ encode i = some w

/-- An event without a word is one whose index is over 255 or whose value is 2^32 or more, and every such event still runs:
a WRITE to one of the four registers stores the low 24 bits and answers `Ok` (R67, R104), and a WRITE, READ or READ_WIRE of
an index over 3 answers InvalidLedIndex and changes nothing else. The encoding is the spec's own (D2), as are the failure of
a bad index (D4, log entry 8) and that an error is only a response (D16, log entry 7). -/
def Obligations.OverWideEventsHaveNoWordAndStillRun : Prop :=
  (∀ idx value, encode (.write idx value) = none ↔ 255 < idx ∨ 2 ^ 32 ≤ value) ∧
  (∀ idx, encode (.read idx) = none ↔ 255 < idx) ∧
  (∀ idx c, encode (.readWire idx c) = none ↔ 255 < idx) ∧
  (∀ (s : State) (i : Fin 4) (value : Nat), encode (.write i.val value) = none →
    ∃ t, exec (.write i.val value) s = .next t ∧ (t.unit.colour i).toNat = value % 2 ^ 24 ∧
      t.responses = s.responses ++ [.ok]) ∧
  (∀ (s : State) (idx value : Nat), encode (.write idx value) = none → 3 < idx →
    exec (.write idx value) s =
      .next { unit := s.unit, pending := s.pending, responses := s.responses ++ [.err .invalidLedIndex] }) ∧
  (∀ (s : State) (idx : Nat), encode (.read idx) = none →
    exec (.read idx) s =
      .next { unit := s.unit, pending := s.pending, responses := s.responses ++ [.err .invalidLedIndex] }) ∧
  (∀ (s : State) (idx : Nat) (c : Colour), encode (.readWire idx c) = none →
    exec (.readWire idx c) s =
      .next { unit := s.unit, pending := s.pending, responses := s.responses ++ [.err .invalidLedIndex] })

/-- A word is IllegalEvent exactly in the four cases of R62, read off the word as a number (the spec's own choice,
D5). -/
def Obligations.IllegalWordsAreExactlyTheReservedOnes : Prop :=
  ∀ w : EventWord,
    (∃ why, decode w = .illegal why) ↔
      let n := w.toNat
      let op := n / 2 ^ 60
      let idx := n / 2 ^ 40 % 2 ^ 8
      let ch := n / 2 ^ 32 % 4
      let val := n % 2 ^ 32
      5 ≤ op ∨
      n / 2 ^ 48 % 2 ^ 12 ≠ 0 ∨ n / 2 ^ 34 % 2 ^ 6 ≠ 0 ∨
      (op = 0 ∧ (idx ≠ 0 ∨ ch ≠ 0 ∨ val ≠ 0)) ∨ (op = 1 ∧ ch ≠ 0) ∨ (op = 2 ∧ (ch ≠ 0 ∨ val ≠ 0)) ∨
      (op = 3 ∧ val ≠ 0) ∨ (op = 4 ∧ (idx ≠ 0 ∨ ch ≠ 0 ∨ val ≠ 0)) ∨
      (op = 3 ∧ ch = 3)

/-- The decoder accepts exactly the words a row of the opcode map accepts, and as that row's event; no two rows match
one word (spec/30_encoding.md section 4; the encoding is the spec's own, D2). -/
def Obligations.DecoderAgreesWithTheOpcodeMap : Prop :=
  (∀ w i, decode w = .event i → ∃ row ∈ opcodeRows, row.mnemonic = i.mnemonic ∧ row.accepts w = true) ∧
  (∀ w, ∀ row ∈ opcodeRows, row.accepts w = true → ∃ i, decode w = .event i ∧ i.mnemonic = row.mnemonic) ∧
  (∀ w : EventWord, ∀ row ∈ opcodeRows, ∀ other ∈ opcodeRows,
    w &&& row.mask = row.matchBits → w &&& other.mask = other.matchBits → row = other)

/-! ## One step -/

/-- A step takes the environment's next event and runs it, whether it comes as a word that decodes or as an abstract
event (the pending list is the model's own, log entry 1). -/
def Obligations.StepRunsTheNextEvent : Prop :=
  (∀ s w rest i, s.pending = .word w :: rest → decode w = .event i → step s = exec i { s with pending := rest }) ∧
  (∀ s rest i, s.pending = .event i :: rest → step s = exec i { s with pending := rest })

/-- A word placed by `withFetchWord` is what the very next step runs (log entry 4). -/
def Obligations.PlacedWordRunsNext : Prop :=
  ∀ (s : State) (w : EventWord) (i : Instr), decode w = .event i → step (s.withFetchWord 64 w.toNat) = exec i s

/-- A word that is IllegalEvent ends with that error and changes nothing of the unit, whatever its index bits hold; the
next event is applied as usual (the spec's own decisions D5, D15, D16). -/
def Obligations.IllegalWordOnlyAnswersTheError : Prop :=
  ∀ s w rest why, s.pending = .word w :: rest → decode w = .illegal why →
    step s = .next { unit := s.unit, pending := rest, responses := s.responses ++ [.err .illegalEvent] }

/-- Whatever the next applied item is, legal or not, the step answers a next state in which that one item is taken and
exactly one response is given; with no event there is no step, and nothing is ever refused. That an item that fails is
answered and the run goes on is the spec's own decision (D16, log entry 7); the last two clauses are the model's choice (log
entry 3). -/
def Obligations.EveryAppliedItemCompletesInOneStep : Prop :=
  (∀ s a rest, s.pending = a :: rest → ∃ t r, step s = .next t ∧ t.pending = rest ∧ t.responses = s.responses ++ [r]) ∧
  (∀ s, step s = .fault .noEvent ↔ s.pending = []) ∧
  (∀ s r, step s ≠ .refused r)

/-! ## Results of the events -/

/-- TICK answers, in every state: the response is the twelve wires before the increment, every counter becomes
`(c + 1) mod 4096`, no register is written. The sample as a response is the spec's own (D20). -/
def Obligations.TickSamplesThenAdvancesEveryCounter : Prop :=
  ∀ s : State, ∃ t wires, exec .tick s = .next t ∧ t.responses = s.responses ++ [.sample wires] ∧
    t.unit.ledColor = s.unit.ledColor ∧ t.pending = s.pending ∧
    ∀ i c, (t.unit.count i c).toNat = ((s.unit.count i c).toNat + 1) % 4096 ∧
      (channel wires i c = true ↔ (s.unit.count i c).toNat < colourByte (s.unit.colour i).toNat c)

/-- WRITE to one of the four registers answers `Ok`: the register holds the low 24 bits of the value, of whatever width,
and nothing else of the unit changes. That nothing signals the truncation is D19. -/
def Obligations.WriteStoresTheLow24Bits : Prop :=
  ∀ (s : State) (i : Fin 4) (value : Nat), ∃ t, exec (.write i.val value) s = .next t ∧
    (t.unit.colour i).toNat = value % 2 ^ 24 ∧ (∀ k, k ≠ i → t.unit.colour k = s.unit.colour k) ∧
    t.unit.ctr = s.unit.ctr ∧ t.pending = s.pending ∧ t.responses = s.responses ++ [.ok]

/-- READ of one of the four registers answers the number the register holds and changes nothing of the unit. That the
answer has 32 bits is D11. -/
def Obligations.ReadAnswersTheRegister : Prop :=
  ∀ (s : State) (i : Fin 4), ∃ v : ValueField, v.toNat = (s.unit.colour i).toNat ∧
    exec (.read i.val) s =
      .next { unit := s.unit, pending := s.pending, responses := s.responses ++ [.value v] }

/-- READ_WIRE of a channel answers whether its counter is below its threshold as both stand, and changes nothing of the
unit. That the threshold is read live, also between a WRITE and the next TICK, is D8. -/
def Obligations.ReadWireAnswersTheComparison : Prop :=
  ∀ (s : State) (i : Fin 4) (c : Colour), ∃ b : Bool,
    (b = true ↔ (s.unit.count i c).toNat < colourByte (s.unit.colour i).toNat c) ∧
    exec (.readWire i.val c) s =
      .next { unit := s.unit, pending := s.pending, responses := s.responses ++ [.bit b] }

/-- RESET answers `Ok` in every state: every register and every counter is 0 and every wire is low. The values are the
spec's own (D6, D7), as is the reset of everything at once (D22); that the events still pending and the responses
already given stand is the model's (log entry 20). That a wire is the comparison with the register as it stands is the
spec's own decision D8 (log entry 9). -/
def Obligations.ResetClearsRegistersCountersAndWires : Prop :=
  ∀ s : State, ∃ t, exec .reset s = .next t ∧ t.pending = s.pending ∧ t.responses = s.responses ++ [.ok] ∧
    ∀ i, (t.unit.colour i).toNat = 0 ∧ ∀ c, (t.unit.count i c).toNat = 0 ∧ t.unit.wire i c = false

/-- The unit starts in the state RESET leaves: from the reset state RESET changes nothing of the unit, and from any
state it gives the unit of the reset state (R141; the values are D6 and D7). -/
def Obligations.ConstructionIsAReset : Prop :=
  ∀ s : State, ∃ t, exec .reset s = .next t ∧ t.unit = State.reset.unit

/-- WRITE, READ and READ_WIRE of an index over 3 answer InvalidLedIndex, and nothing else changes: the index is neither
clamped nor masked (the spec's own decisions D4 and D16). -/
def Obligations.InvalidIndexOnlyAnswersTheError : Prop :=
  ∀ (s : State) (idx : Nat), 3 < idx →
    (∀ value, exec (.write idx value) s =
      .next { unit := s.unit, pending := s.pending, responses := s.responses ++ [.err .invalidLedIndex] }) ∧
    exec (.read idx) s =
      .next { unit := s.unit, pending := s.pending, responses := s.responses ++ [.err .invalidLedIndex] } ∧
    (∀ c, exec (.readWire idx c) s =
      .next { unit := s.unit, pending := s.pending, responses := s.responses ++ [.err .invalidLedIndex] })

/-- There is no other failure (R123): the one response an event gives is an error only for a WRITE, READ or READ_WIRE whose
index is over 3; TICK and RESET never fail. That such a failing event, like every other, answers a next state whose response
is the error is the spec's own decision (D16, log entry 7), as is the failure itself (D4, log entry 8); R123 says neither. -/
def Obligations.OnlyInvalidIndexesFail : Prop :=
  ∀ (s : State) (i : Instr), ∃ t r, exec i s = .next t ∧ t.responses = s.responses ++ [r] ∧
    (r.isError = true → ∃ idx, 3 < idx ∧
      ((∃ value, i = .write idx value) ∨ i = .read idx ∨ ∃ c, i = .readWire idx c))

/-! ## Frames -/

/-- READ and READ_WIRE write no state of the unit, so every counter and wire is unchanged; WRITE changes only the register
it names; a second WRITE of the same value leaves the same state, and every later response is the same (R46). The clauses
hold for every index: that one over 3 answers a next state and changes no register and no counter is the spec's own
decision (D4 and D16, log entries 8 and 7), not R46's. -/
def Obligations.ReadsArePureAndWritesAreIdempotent : Prop :=
  (∀ s idx, ∃ t, exec (.read idx) s = .next t ∧ t.unit = s.unit ∧ t.pending = s.pending) ∧
  (∀ s idx c, ∃ t, exec (.readWire idx c) s = .next t ∧ t.unit = s.unit ∧ t.pending = s.pending) ∧
  (∀ s idx value, ∃ once twice, exec (.write idx value) s = .next once ∧ exec (.write idx value) once = .next twice ∧
    once.unit.ctr = s.unit.ctr ∧ (∀ k : Fin 4, k.val ≠ idx → once.unit.colour k = s.unit.colour k) ∧
    twice.unit = once.unit ∧
    ∀ evs, play evs { once with responses := [] } = play evs { twice with responses := [] })

/-- R53: a WRITE to register `i` leaves the other three registers, every counter, and the wires of the other three LEDs
as they were. -/
def Obligations.WriteChangesNoOtherLed : Prop :=
  ∀ (s : State) (i k : Fin 4) (value : Nat), i ≠ k → ∃ t, exec (.write i.val value) s = .next t ∧
    t.unit.colour k = s.unit.colour k ∧ t.unit.ctr = s.unit.ctr ∧ ∀ c, t.unit.wire k c = s.unit.wire k c

/-- Every counter wraps modulo 2^12 on every TICK; only TICK and RESET write a counter; and no event reads one: two
units with the same registers and the same wires, whatever their counters, give the same response to every event
(R24). The last clause rests on the spec's own decisions as well: that a TICK's response is the wires before the
increment (D20, log entry 14) and that READ_WIRE answers from the live threshold (D8, log entry 9). It holds of every
event, a WRITE, READ or READ_WIRE of an index over 3 included: that such an event fails is the spec's own decision D4
(log entry 8), and that it answers a next state with the error as its one response is D16 (log entry 7). -/
def Obligations.CountersAreWrittenByTickAndResetAndReadByNoEvent : Prop :=
  (∀ s t i c, exec .tick s = .next t → (t.unit.count i c).toNat = ((s.unit.count i c).toNat + 1) % 2 ^ 12) ∧
  (∀ e s t, exec e s = .next t → e ≠ .tick → e ≠ .reset → t.unit.ctr = s.unit.ctr) ∧
  (∀ e s₁ s₂, s₁.unit.ledColor = s₂.unit.ledColor → (∀ i c, s₁.unit.wire i c = s₂.unit.wire i c) →
    ∃ t₁ t₂ r, exec e s₁ = .next t₁ ∧ exec e s₂ = .next t₂ ∧
      t₁.responses = s₁.responses ++ [r] ∧ t₂.responses = s₂.responses ++ [r])

/-- The colour registers are written by WRITE, to the register it names, and by RESET, and by nothing else (the table of
R20); every event leaves the events still pending as they are. That a WRITE of an index over 3 leaves every register is the
spec's own decision (D4, log entry 8); that every event, RESET included, leaves the pending events is the model's choice
(log entries 1 and 20). -/
def Obligations.RegistersAreWrittenByWriteAndResetOnly : Prop :=
  ∀ e s t, exec e s = .next t →
    t.pending = s.pending ∧
    ∀ k : Fin 4, e ≠ .reset → (∀ value, e ≠ .write k.val value) → t.unit.colour k = s.unit.colour k

/-- R90: the twelve channels share no mutable state. A counter is written only by TICK and RESET; TICK gives each channel
a count that depends on its own count alone; a wire reads only its own counter and register; and advancing the twelve
channels one after another, in any order, is what TICK does. -/
def Obligations.ChannelsAreIndependent : Prop :=
  (∀ e s t, exec e s = .next t → e ≠ .tick → e ≠ .reset → ∀ i c, t.unit.count i c = s.unit.count i c) ∧
  (∀ s₁ s₂ t₁ t₂ i c, exec .tick s₁ = .next t₁ → exec .tick s₂ = .next t₂ → s₁.unit.count i c = s₂.unit.count i c →
    t₁.unit.count i c = t₂.unit.count i c) ∧
  (∀ (u v : UnitState) i c, u.count i c = v.count i c → u.colour i = v.colour i → u.wire i c = v.wire i c) ∧
  (∀ (s : State) (order : List (Fin 4 × Colour)), order.Perm allChannels →
    ∃ t, exec .tick s = .next t ∧ t.unit = order.foldl UnitState.advanceChannel s.unit)

/-- A WRITE replaces all 24 bits in one step: after it, and after any items that neither write that register nor
reset, a TICK, a READ and a READ_WIRE each see the new value whole and nothing of the old one (R47). What the TICK
shows is the sample before the increment, the spec's own decision D20 (log entry 14). That a READ_WIRE before the next
TICK already compares with the new threshold is the spec's own decision D8 (log entry 9), which R47 does not say. The
items between include WRITEs of an index over 3: that such a WRITE leaves the register is the spec's own decision D4
(log entry 8), and that an item that fails is answered and the run goes on is D16 (log entry 7). -/
def Obligations.WritesAreNeverSeenTorn : Prop :=
  ∀ (s : State) (i : Fin 4) (value : Nat) (between : List Applied),
    (∀ a ∈ between, a.writesTo i = false ∧ a.isReset = false) →
    ∃ t, play (.event (.write i.val value) :: between) s = .next t ∧
      (∃ t' wires, exec .tick t = .next t' ∧ t'.responses = t.responses ++ [.sample wires] ∧
        ∀ c, channel wires i c = true ↔ (t.unit.count i c).toNat < colourByte (value % 2 ^ 24) c) ∧
      (∃ t' v, exec (.read i.val) t = .next t' ∧ t'.responses = t.responses ++ [.value v] ∧
        v.toNat = value % 2 ^ 24) ∧
      (∀ c, ∃ t' b, exec (.readWire i.val c) t = .next t' ∧ t'.responses = t.responses ++ [.bit b] ∧
        (b = true ↔ (t.unit.count i c).toNat < colourByte (value % 2 ^ 24) c))

/-! ## Fields, thresholds and wires -/

/-- R100: the field of each colour is the byte named for it, R from bits 23:16, G from 15:8, B from 7:0. -/
def Obligations.FieldsAreTheRegistersBytes : Prop :=
  ∀ r : ColourReg, (field r .red).toNat = r.toNat / 2 ^ 16 ∧ (field r .green).toNat = r.toNat / 2 ^ 8 % 2 ^ 8 ∧
    (field r .blue).toNat = r.toNat % 2 ^ 8 ∧
    r.toNat = (field r .red).toNat * 2 ^ 16 + (field r .green).toNat * 2 ^ 8 + (field r .blue).toNat

/-- The channel map is a bijection between the bits of the four registers and the twelve thresholds: every choice of
twelve thresholds is that of exactly one contents of the registers, whatever the counters (R101; that channels are named
by pairs is the spec's own, D21). -/
def Obligations.ThresholdsAndRegistersAreInBijection : Prop :=
  ∀ counters : PerLed (Rgb Counter),
    Function.Bijective fun registers : PerLed ColourReg =>
      UnitState.thresholds { ledColor := registers, ctr := counters }

/-- A wire is high exactly when the high four bits of its counter are 0 and the low eight are below the threshold, so
never at a count of 256 or more and never for a threshold of 0 (the spec's own derivation, R88 points 1, 3 and 4).
That a wire is the comparison with the register as it stands is the spec's own decision D8 (log entry 9). -/
def Obligations.WireIsHighOnlyInTheFirstSubBlock : Prop :=
  ∀ (u : UnitState) (i : Fin 4) (c : Colour),
    (u.wire i c = true ↔ (u.count i c).extractLsb' 8 4 = 0#4 ∧
      ((u.count i c).extractLsb' 0 8).toNat < (u.threshold i c).toNat) ∧
    (256 ≤ (u.count i c).toNat → u.wire i c = false) ∧
    (u.threshold i c = 0#8 → u.wire i c = false)

/-! ## Runs -/

/-- `n` TICKs from any state, in closed form: the registers stand, every counter has advanced by `n` modulo 4096, and
response `j` is a sample that shows channel `(i, c)` high exactly when `(count + j) mod 4096` is below its threshold
(the spec's own derivation, R87, here from any counts; the sample is D20). -/
def Obligations.TicksFollowTheClosedForm : Prop :=
  ∀ (s : State) (n : Nat), ∃ t new, play (List.replicate n (.event .tick)) s = .next t ∧
    t.unit.ledColor = s.unit.ledColor ∧ t.pending = [] ∧
    (∀ i c, (t.unit.count i c).toNat = ((s.unit.count i c).toNat + n) % 4096) ∧
    t.responses = s.responses ++ new ∧ new.length = n ∧
    ∀ j, j < n → ∃ wires, new[j]? = some (.sample wires) ∧ ∀ i c,
      (channel wires i c = true ↔ ((s.unit.count i c).toNat + j) % 4096 < colourByte (s.unit.colour i).toNat c)

/-- Over any 4096 consecutive tick samples, from any state, each wire is high in exactly as many as its threshold says,
and the unit is back where it was (the spec's own derivations, R88 points 2 and 5, and R89; the sample is D20). -/
def Obligations.DutyOverOnePeriodIsTheThreshold : Prop :=
  ∀ s : State, ∃ t new, play (List.replicate 4096 (.event .tick)) s = .next t ∧ t.unit = s.unit ∧
    t.responses = s.responses ++ new ∧
    ∀ i c, new.countP (Response.showsHigh i c) = colourByte (s.unit.colour i).toNat c

/-- After a RESET and any events without a further RESET, legal or not, every counter holds the number of TICKs among
them modulo 4096 (the spec's own derivation, R30; the reset value of a counter is D7). That an item that fails is
answered and the run goes on is the spec's own decision D16 (log entry 7). Which items fail is D4 (log entry 8) and
D5. -/
def Obligations.CountersCountTicksSinceReset : Prop :=
  ∀ (s : State) (evs : List Applied), (∀ a ∈ evs, a.isReset = false) →
    ∃ t, play (.event .reset :: evs) s = .next t ∧
      ∀ i c, (t.unit.count i c).toNat = evs.countP Applied.isTick % 4096

/-- Every step keeps the twelve counters equal, in every state in which they are (the spec's own derivation, R30).
That an item that fails is answered and the run goes on is the spec's own decision D16 (log entry 7). That RESET
resets all counters at once, to one value, is D22 and D7 (log entries 20 and 6). -/
def Obligations.StepKeepsTheCountersEqual : Prop :=
  ∀ s t : State, s.unit.CountersAgree → step s = .next t → t.unit.CountersAgree

/-- The twelve counters are equal at reset (D7 gives the value). -/
def Obligations.CountersAreEqualAtReset : Prop := State.reset.unit.CountersAgree

/-- A WRITE to a register, then any events that neither write that register nor reset, legal or not and with any
number of TICKs, then a READ: the READ answers the low 24 bits of the value written (the spec's own derivation, R105).
The items between include WRITEs of an index over 3: that such a WRITE leaves the register is the spec's own decision
D4 (log entry 8), and that an item that fails is answered and the run goes on is D16 (log entry 7). -/
def Obligations.ReadAnswersTheLastWriteAcrossAnyEvents : Prop :=
  ∀ (s : State) (i : Fin 4) (value : Nat) (between : List Applied),
    (∀ a ∈ between, a.writesTo i = false ∧ a.isReset = false) →
    ∃ t v, play (.event (.write i.val value) :: between ++ [.event (.read i.val)]) s = .next t ∧
      t.responses.getLast? = some (.value v) ∧ v.toNat = value % 2 ^ 24

/-- A READ with no WRITE to its register since the RESET answers 0 (R49; the value is the spec's own, D6). The items
between include WRITEs of an index over 3: that such a WRITE leaves the register is the spec's own decision D4 (log
entry 8), and that an item that fails is answered and the run goes on is D16 (log entry 7). -/
def Obligations.ReadBeforeAnyWriteAnswersTheResetValue : Prop :=
  ∀ (s : State) (i : Fin 4) (between : List Applied), (∀ a ∈ between, a.writesTo i = false ∧ a.isReset = false) →
    ∃ t, play (.event .reset :: between ++ [.event (.read i.val)]) s = .next t ∧
      t.responses.getLast? = some (.value 0#32)

/-- Of two WRITEs to one register with nothing between them only the second is ever seen: the unit ends the same as
without the first, and every later response is the same (the spec's own derivation, R107). That an item that fails is
answered and the run goes on is the spec's own decision D16 (log entry 7). -/
def Obligations.LastWriteWins : Prop :=
  ∀ (s : State) (i : Fin 4) (v₁ v₂ : Nat) (after : List Applied), ∃ t₁ t₂ new,
    play (.event (.write i.val v₁) :: .event (.write i.val v₂) :: after) s = .next t₁ ∧
    play (.event (.write i.val v₂) :: after) s = .next t₂ ∧
    t₁.unit = t₂.unit ∧ t₁.responses = s.responses ++ [.ok, .ok] ++ new ∧ t₂.responses = s.responses ++ [.ok] ++ new

/-- Events that end with an error leave no trace: leaving them out of a run changes neither the unit it ends with nor
any response but their own (R125; the spec's own decision D16). That a WRITE, READ or READ_WIRE of an index over 3
fails and changes nothing is the spec's own decision D4 (log entry 8), that a reserved word fails is D5, and that the
run goes on after an error is D16 (log entry 7). -/
def Obligations.FailingEventsLeaveNoTrace : Prop :=
  ∀ (s : State) (evs : List Applied), ∃ t t' new,
    play evs s = .next t ∧ play (evs.filter fun a => !a.failing) s = .next t' ∧
    t.unit = t'.unit ∧ t.responses = s.responses ++ new ∧
    t'.responses = s.responses ++ new.filter fun r => !r.isError

/-- A run without an error response so far stays without one exactly if none of its events is failing: a word the decoder
rejects, or a WRITE, READ or READ_WIRE of an index over 3 (R120; the spec's own decisions D4, D5 and D16). -/
def Obligations.ARunIsErrorFreeExactlyWithoutFailingEvents : Prop :=
  ∀ (s : State) (evs : List Applied), s.errorFree = true →
    ∃ t, play evs s = .next t ∧ (t.errorFree = true ↔ ∀ a ∈ evs, a.failing = false)

/-- The registers learn nothing of the counters: two runs of the same events from units with the same registers,
whatever their counters, end with the same registers and give the same responses but for samples and wire levels
(R103: the result of a READ is "independent of PWM state"). That an index over 3 fails and changes nothing is the
spec's own decision D4 (log entry 8), that a reserved word fails is D5, and that the run goes on after an error is D16
(log entry 7). -/
def Obligations.RegistersLearnNothingOfTheCounters : Prop :=
  ∀ (s₁ s₂ : State) (evs : List Applied), s₁.unit.ledColor = s₂.unit.ledColor → s₁.responses = s₂.responses →
    ∃ t₁ t₂, play evs s₁ = .next t₁ ∧ play evs s₂ = .next t₂ ∧ t₁.unit.ledColor = t₂.unit.ledColor ∧
      t₁.responses.length = t₂.responses.length ∧
      ∀ (j : Nat) (r : Response), t₁.responses[j]? = some r → (∀ wires, r ≠ .sample wires) → (∀ b, r ≠ .bit b) →
        t₂.responses[j]? = some r

/-! ## Other machines of the spec -/

/-- One counter for the twelve channels does as well: on every state whose counters are equal, each event does to the
unit what it does to the machine with the one counter, and gives the same response (the spec's own derivation, R30).
That an index over 3 answers an error and changes nothing is the spec's own decision (D4 and D16, log entries 8 and
7), as are the sample before the increment (D20, log entry 14) and the reset values (D6 and D7, log entries 5 and 6).
That READ_WIRE answers from the live threshold is D8 (log entry 9). -/
def Obligations.OneSharedCounterIsARefinement : Prop :=
  ∀ (e : Instr) (v : SharedUnit) (s : State), s.unit = v.expand →
    ∃ t, exec e s = .next t ∧ t.unit = (sharedApply e v).1.expand ∧
      t.responses = s.responses ++ [(sharedApply e v).2]

/-- A machine that copies the thresholds at each TICK gives the same tick samples, the same READs and the same unit; a
READ_WIRE agrees too while no register has changed since the copy, and it is current after every TICK and RESET (R80;
where the two could differ is the spec's own decision D8). That an index over 3 answers an error and changes nothing
is the spec's own decision (D4 and D16, log entries 8 and 7), as are the sample before the increment (D20, log entry
14) and the reset values (D6 and D7, log entries 5 and 6). -/
def Obligations.CopyingTheThresholdAtEachTickAgrees : Prop :=
  ∀ (e : Instr) (v : CopyUnit) (s : State), s.unit = v.unit →
    ∃ t r, exec e s = .next t ∧ t.responses = s.responses ++ [r] ∧ t.unit = (copyApply e v).1.unit ∧
      ((∀ idx c, e ≠ .readWire idx c) ∨ v.current → (copyApply e v).2 = r) ∧
      (e = .tick ∨ e = .reset → (copyApply e v).1.current) ∧
      (v.current → (∀ idx value, e ≠ .write idx value) → (copyApply e v).1.current)

/-- One edge of a clocked implementation, on which the counters advance and a bus write may land together, is the event
order TICK then WRITE: the same unit after it, and the sample of the TICK (the spec's own decision D18). -/
def Obligations.AClockEdgeIsTickThenWrite : Prop :=
  (∀ (s : State) (i : Fin 4) (value : Nat), ∃ t,
    play [.event .tick, .event (.write i.val value)] s = .next t ∧
    t.unit = (clockEdge (some (i, value)) s.unit).1 ∧
    t.responses = s.responses ++ [.sample (clockEdge (some (i, value)) s.unit).2, .ok]) ∧
  (∀ s : State, ∃ t, exec .tick s = .next t ∧ t.unit = (clockEdge none s.unit).1 ∧
    t.responses = s.responses ++ [.sample (clockEdge none s.unit).2])

/-- For every assignment of four different addresses, a whole-register access at the address of register `i` is WRITE or
READ of index `i`, an access there of any other size is refused, and an address that is none of the four is no event of
the unit (the spec's own decisions D9 and D10; the bridge's answers as data are the model's, log entry 15). -/
def Obligations.BusAccessesAreWholeRegisterEvents : Prop :=
  ∀ p : Config.Params, addressesDistinct p →
    (∀ i value, busEvent p (.write (ledColorAddr p i) 3 value) = .event (.write i.val value) ∧
      busEvent p (.read (ledColorAddr p i) 3) = .event (.read i.val)) ∧
    (∀ i bytes value, bytes ≠ 3 → busEvent p (.write (ledColorAddr p i) bytes value) = .notWholeRegister ∧
      busEvent p (.read (ledColorAddr p i) bytes) = .notWholeRegister) ∧
    (∀ addr bytes value, (∀ i, addr ≠ ledColorAddr p i) → busEvent p (.write addr bytes value) = .notARegister ∧
      busEvent p (.read addr bytes) = .notARegister)

/-! ## Text -/

/-- For every index, `setrgb` expands to one WRITE of the packed value `r * 2^16 + g * 2^8 + b` and is rejected when one of
its components is over 255, and `off` expands to one WRITE of 0 (R71; the spec's own decision D3). On each of the four LEDs
the WRITE of `setrgb` sets the three thresholds to the components, and after that of `off` the LED's wires are low at every
count. That a wire is the comparison with the register as it stands is the spec's own decision D8 (log entry 9). -/
def Obligations.SetrgbAndOffSetTheThresholds : Prop :=
  (∀ idx r g b : Nat, r ≤ 255 → g ≤ 255 → b ≤ 255 →
    expandSetrgb idx r g b = some [.write idx (r * 2 ^ 16 + g * 2 ^ 8 + b)]) ∧
  (∀ idx r g b : Nat, 255 < r ∨ 255 < g ∨ 255 < b → expandSetrgb idx r g b = none) ∧
  (∀ idx : Nat, expandOff idx = [.write idx 0]) ∧
  (∀ (s : State) (i : Fin 4) (r g b : Nat), r ≤ 255 → g ≤ 255 → b ≤ 255 →
    ∃ e t, expandSetrgb i.val r g b = some [e] ∧ exec e s = .next t ∧ (t.unit.threshold i .red).toNat = r ∧
      (t.unit.threshold i .green).toNat = g ∧ (t.unit.threshold i .blue).toNat = b) ∧
  (∀ (s : State) (i : Fin 4), ∃ e t, expandOff i.val = [e] ∧ exec e s = .next t ∧
    ∀ counters c, UnitState.wire { t.unit with ctr := counters } i c = false)

/-- The line of text of a well-formed event assembles to that event's word (R70; the spec's own decision D3, and log entry
18 for what it leaves open). -/
def Obligations.EventTextAssemblesToItsWord : Prop :=
  ∀ i : Instr, i.wellFormed = true → ∃ w, encode i = some w ∧ assembleLine (eventText i) = some [w]
end

