-- ==== Sys2Proof/Laws/Decode.lean ====
section
/-! SUPPORT. The fields of an event word as numbers, and the number an encoded event is. -/

namespace Sys2Proof

/-! ## Fields of a word -/

theorem opField_toNat (w : EventWord) : (opField w).toNat = w.toNat / 2 ^ 60 % 2 ^ 4 := by
  simp only [opField, BitVec.extractLsb'_toNat, Nat.shiftRight_eq_div_pow]

theorem reservedHighField_toNat (w : EventWord) : (reservedHighField w).toNat = w.toNat / 2 ^ 48 % 2 ^ 12 := by
  simp only [reservedHighField, BitVec.extractLsb'_toNat, Nat.shiftRight_eq_div_pow]

theorem idxField_toNat (w : EventWord) : (idxField w).toNat = w.toNat / 2 ^ 40 % 2 ^ 8 := by
  simp only [idxField, BitVec.extractLsb'_toNat, Nat.shiftRight_eq_div_pow]

theorem reservedLowField_toNat (w : EventWord) : (reservedLowField w).toNat = w.toNat / 2 ^ 34 % 2 ^ 6 := by
  simp only [reservedLowField, BitVec.extractLsb'_toNat, Nat.shiftRight_eq_div_pow]

theorem chField_toNat (w : EventWord) : (chField w).toNat = w.toNat / 2 ^ 32 % 2 ^ 2 := by
  simp only [chField, BitVec.extractLsb'_toNat, Nat.shiftRight_eq_div_pow]

theorem valField_toNat (w : EventWord) : (valField w).toNat = w.toNat % 2 ^ 32 := by
  simp only [valField, BitVec.extractLsb'_toNat, Nat.shiftRight_eq_div_pow, pow_zero, Nat.div_one]

/-- A field is zero exactly when its number is. -/
theorem field_eq_zero_iff {n : Nat} (v : BitVec n) : v = 0 ↔ v.toNat = 0 := by
  rw [BitVec.toNat_eq]
  simp

/-- A masked word is a pattern exactly when it is so bit by bit. -/
theorem masked_eq_iff_bits (w mask pattern : EventWord) :
    w &&& mask = pattern ↔ ∀ i, i < 64 → (w.getLsbD i && mask.getLsbD i) = pattern.getLsbD i := by
  constructor
  · rintro rfl i -
    simp
  · intro h
    exact BitVec.eq_of_getLsbD_eq fun i hi => by simpa using h i hi

/-- A field of a word is a value exactly when it is so bit by bit. -/
theorem extract_eq_iff_bits {n : Nat} (w : EventWord) (start : Nat) (v : BitVec n) :
    w.extractLsb' start n = v ↔ ∀ i, i < n → w.getLsbD (start + i) = v.getLsbD i := by
  constructor
  · rintro rfl i hi
    simp [hi]
  · intro h
    exact BitVec.eq_of_getLsbD_eq fun i hi => by simpa [hi] using h i hi

/-! ## Well-formedness, and the colour codes -/

theorem wellFormed_write_iff (idx value : Nat) :
    (Instr.write idx value).wellFormed = true ↔ idx ≤ 255 ∧ value < 2 ^ 32 := by
  simp [Instr.wellFormed, indexFits, valueFits]

theorem wellFormed_read_iff (idx : Nat) : (Instr.read idx).wellFormed = true ↔ idx ≤ 255 := by
  simp [Instr.wellFormed, indexFits]

theorem wellFormed_readWire_iff (idx : Nat) (c : Colour) :
    (Instr.readWire idx c).wellFormed = true ↔ idx ≤ 255 := by
  simp [Instr.wellFormed, indexFits]

theorem Colour.code_lt (c : Colour) : c.code < 3 := by
  cases c <;> decide

theorem colourOfCode_code (c : Colour) : colourOfCode c.code = some c := by
  cases c <;> rfl

/-- A `CH` value selects a colour exactly when it is that colour's code. -/
theorem colourOfCode_eq_some {n : Nat} {c : Colour} (h : colourOfCode n = some c) : n = c.code := by
  unfold colourOfCode at h
  split at h <;> cases h <;> rfl

/-! ## The number of an encoded event -/

/-- Two parts of a word that do not overlap: or-ing them is adding them. -/
theorem toNat_shift_or (hi : Nat) (k : Nat) (low : EventWord) (hk : low.toNat < 2 ^ k) (hhi : hi * 2 ^ k < 2 ^ 64) :
    ((BitVec.ofNat 64 hi <<< k) ||| low).toNat = hi * 2 ^ k + low.toNat := by
  have hpos : 0 < 2 ^ k := Nat.two_pow_pos k
  have h64 : hi < 2 ^ 64 := lt_of_le_of_lt (Nat.le_mul_of_pos_right hi hpos) hhi
  rw [BitVec.toNat_or, BitVec.toNat_shiftLeft, BitVec.toNat_ofNat, Nat.mod_eq_of_lt h64, Nat.shiftLeft_eq,
    Nat.mod_eq_of_lt hhi, ← Nat.shiftLeft_eq, ← Nat.shiftLeft_add_eq_or_of_lt hk]

end Sys2Proof
end

