-- ==== Sys2Proof/Laws/State.lean ====
section
/-! SUPPORT. One lemma per field per update of the state, and the read-after-write laws of the tables by LED and colour. -/

namespace Sys2Proof.Machine

/-! ## Updates of the state -/

@[simp] theorem State.setUnit_unit (s : State) (u : UnitState) : (s.setUnit u).unit = u := rfl
@[simp] theorem State.setUnit_pending (s : State) (u : UnitState) : (s.setUnit u).pending = s.pending := rfl
@[simp] theorem State.setUnit_responses (s : State) (u : UnitState) :
    (s.setUnit u).responses = s.responses := rfl

@[simp] theorem State.setPending_unit (s : State) (evs : List Applied) : (s.setPending evs).unit = s.unit := rfl
@[simp] theorem State.setPending_pending (s : State) (evs : List Applied) :
    (s.setPending evs).pending = evs := rfl
@[simp] theorem State.setPending_responses (s : State) (evs : List Applied) :
    (s.setPending evs).responses = s.responses := rfl

@[simp] theorem State.respond_unit (s : State) (r : Response) : (s.respond r).unit = s.unit := rfl
@[simp] theorem State.respond_pending (s : State) (r : Response) : (s.respond r).pending = s.pending := rfl
@[simp] theorem State.respond_responses (s : State) (r : Response) :
    (s.respond r).responses = s.responses ++ [r] := rfl

@[simp] theorem State.raise_unit (s : State) (e : ErrorCode) : (s.raise e).unit = s.unit := rfl
@[simp] theorem State.raise_pending (s : State) (e : ErrorCode) : (s.raise e).pending = s.pending := rfl
@[simp] theorem State.raise_responses (s : State) (e : ErrorCode) :
    (s.raise e).responses = s.responses ++ [.err e] := rfl

@[simp] theorem UnitState.setColour_ctr (u : UnitState) (i : Fin 4) (v : ColourReg) :
    (u.setColour i v).ctr = u.ctr := rfl
@[simp] theorem UnitState.setColour_count (u : UnitState) (i k : Fin 4) (c : Colour) (v : ColourReg) :
    (u.setColour i v).count k c = u.count k c := rfl
@[simp] theorem UnitState.setCount_ledColor (u : UnitState) (i : Fin 4) (c : Colour) (v : Counter) :
    (u.setCount i c v).ledColor = u.ledColor := rfl
@[simp] theorem UnitState.advance_ledColor (u : UnitState) : u.advance.ledColor = u.ledColor := rfl
@[simp] theorem UnitState.advance_colour (u : UnitState) (i : Fin 4) : u.advance.colour i = u.colour i := rfl

/-! ## Tables by LED and by colour -/

@[simp] theorem PerLed.get_set_self {α : Type} (p : PerLed α) (i : Fin 4) (v : α) : (p.set i v).get i = v := by
  fin_cases i <;> rfl

theorem PerLed.get_set_ne {α : Type} (p : PerLed α) {i k : Fin 4} (v : α) (h : i ≠ k) :
    (p.set i v).get k = p.get k := by
  fin_cases i <;> fin_cases k <;> first | rfl | exact absurd rfl h

theorem PerLed.set_set {α : Type} (p : PerLed α) (i : Fin 4) (v w : α) : (p.set i v).set i w = p.set i w := by
  fin_cases i <;> rfl

@[simp] theorem PerLed.get_ofFn {α : Type} (f : Fin 4 → α) (i : Fin 4) : (PerLed.ofFn f).get i = f i := by
  fin_cases i <;> rfl

theorem PerLed.ext_get {α : Type} {p q : PerLed α} (h : ∀ i, p.get i = q.get i) : p = q := by
  obtain ⟨p0, p1, p2, p3⟩ := p
  obtain ⟨q0, q1, q2, q3⟩ := q
  obtain rfl : p0 = q0 := h 0
  obtain rfl : p1 = q1 := h 1
  obtain rfl : p2 = q2 := h 2
  obtain rfl : p3 = q3 := h 3
  rfl

@[simp] theorem Rgb.get_set_self {α : Type} (p : Rgb α) (c : Colour) (v : α) : (p.set c v).get c = v := by
  cases c <;> rfl

theorem Rgb.get_set_ne {α : Type} (p : Rgb α) {c d : Colour} (v : α) (h : c ≠ d) :
    (p.set c v).get d = p.get d := by
  cases c <;> cases d <;> first | rfl | exact absurd rfl h

@[simp] theorem Rgb.get_ofFn {α : Type} (f : Colour → α) (c : Colour) : (Rgb.ofFn f).get c = f c := by
  cases c <;> rfl

theorem Rgb.ext_get {α : Type} {p q : Rgb α} (h : ∀ c, p.get c = q.get c) : p = q := by
  obtain ⟨pr, pg, pb⟩ := p
  obtain ⟨qr, qg, qb⟩ := q
  obtain rfl : pr = qr := h .red
  obtain rfl : pg = qg := h .green
  obtain rfl : pb = qb := h .blue
  rfl

@[simp] theorem channel_perChannel {α : Type} (f : Fin 4 → Colour → α) (i : Fin 4) (c : Colour) :
    channel (perChannel f) i c = f i c := by
  simp [channel, perChannel]

theorem ext_channel {α : Type} {p q : PerLed (Rgb α)} (h : ∀ i c, channel p i c = channel q i c) : p = q :=
  PerLed.ext_get fun i => Rgb.ext_get fun c => h i c

/-- Two unit states are equal if every register and every counter is (R20: nothing else is state). -/
theorem UnitState.ext_access {u v : UnitState} (hcol : ∀ i, u.colour i = v.colour i)
    (hcnt : ∀ i c, u.count i c = v.count i c) : u = v := by
  obtain ⟨ul, uc⟩ := u
  obtain ⟨vl, vc⟩ := v
  obtain rfl : ul = vl := PerLed.ext_get hcol
  obtain rfl : uc = vc := ext_channel hcnt
  rfl

/-! ## Registers and counters -/

@[simp] theorem UnitState.setColour_colour_self (u : UnitState) (i : Fin 4) (v : ColourReg) :
    (u.setColour i v).colour i = v := PerLed.get_set_self _ _ _

theorem UnitState.setColour_colour_ne (u : UnitState) {i k : Fin 4} (v : ColourReg) (h : i ≠ k) :
    (u.setColour i v).colour k = u.colour k := PerLed.get_set_ne _ _ h

theorem UnitState.setColour_setColour (u : UnitState) (i : Fin 4) (v w : ColourReg) :
    (u.setColour i v).setColour i w = u.setColour i w := by
  simp [UnitState.setColour, PerLed.set_set]

@[simp] theorem UnitState.advance_count (u : UnitState) (i : Fin 4) (c : Colour) :
    u.advance.count i c = nextCount (u.count i c) := channel_perChannel _ _ _

@[simp] theorem UnitState.reset_colour (i : Fin 4) : UnitState.reset.colour i = resetColour := by
  fin_cases i <;> rfl

@[simp] theorem UnitState.reset_count (i : Fin 4) (c : Colour) : UnitState.reset.count i c = resetCount := by
  fin_cases i <;> cases c <;> rfl

@[simp] theorem UnitState.sample_channel (u : UnitState) (i : Fin 4) (c : Colour) :
    channel u.sample i c = u.wire i c := channel_perChannel _ _ _

end Sys2Proof.Machine
end

