-- ==== Sys2Proof/Laws/Ops.lean ====
section
/-! SUPPORT. One spec lemma per shared operation, in terms of numbers: what the increment, the comparator, the field
selection and the index check compute. -/

namespace Sys2Proof.Machine

/-! ## Operands -/

theorem ledOf?_val (i : Fin 4) : ledOf? i.val = some i := by
  simp [ledOf?, i.isLt]

theorem ledOf?_of_gt {idx : Nat} (h : 3 < idx) : ledOf? idx = none := by
  simp [ledOf?, Nat.not_lt.mpr (Nat.succ_le_of_lt h)]

theorem ledOf?_eq_some {idx : Nat} {i : Fin 4} (h : ledOf? idx = some i) : idx = i.val := by
  unfold ledOf? at h
  split at h
  · cases h; rfl
  · cases h

theorem ledOf?_eq_none {idx : Nat} (h : ledOf? idx = none) : 3 < idx := by
  unfold ledOf? at h
  split at h
  · cases h
  · omega

/-- An index names one of the four LEDs or is beyond them. -/
theorem ledOf?_cases (idx : Nat) : (∃ i : Fin 4, idx = i.val ∧ ledOf? idx = some i) ∨ (3 < idx ∧ ledOf? idx = none) := by
  cases h : ledOf? idx with
  | some i => exact .inl ⟨i, ledOf?_eq_some h, rfl⟩
  | none => exact .inr ⟨ledOf?_eq_none h, rfl⟩

theorem withLed_val (i : Fin 4) (s : State) (effect : Fin 4 → State) : withLed i.val s effect = effect i := by
  simp [withLed, ledOf?_val]

theorem withLed_of_gt {idx : Nat} (h : 3 < idx) (s : State) (effect : Fin 4 → State) :
    withLed idx s effect = s.raise .invalidLedIndex := by
  simp [withLed, ledOf?_of_gt h]

/-- The byte a colour selects, as a number. -/
theorem field_toNat (r : ColourReg) (c : Colour) : (field r c).toNat = colourByte r.toNat c := by
  cases c <;> simp [field, colourByte, BitVec.extractLsb'_toNat, Nat.shiftRight_eq_div_pow]

theorem storedColour_toNat (value : Nat) : (storedColour value).toNat = value % 2 ^ 24 := by
  simp [storedColour]

theorem readValue_toNat (r : ColourReg) : (readValue r).toNat = r.toNat := by
  have h := r.isLt
  simp only [readValue, BitVec.toNat_setWidth]
  omega

/-! ## Counter and comparator -/

/-- A counter runs from 0 to 4095 (R8, R84). -/
theorem UnitState.count_lt_period (u : UnitState) (i : Fin 4) (c : Colour) : (u.count i c).toNat < Config.period :=
  (u.count i c).isLt

/-- There are twelve channels, and every pair of an LED and a colour is one of them (R8, R101). -/
theorem allChannels_complete : allChannels.length = Config.channelCount ∧ ∀ i c, (i, c) ∈ allChannels := by
  refine ⟨rfl, fun i c => ?_⟩
  fin_cases i <;> cases c <;> decide

theorem nextCount_toNat (k : Counter) : (nextCount k).toNat = (k.toNat + 1) % 4096 := by
  simp [nextCount]

/-- The comparator on numbers: high exactly when the counter is below the threshold. -/
theorem comparator_iff (k : Counter) (t : Threshold) : comparator k t = true ↔ k.toNat < t.toNat := by
  have h := t.isLt
  have e : t.toNat % 2 ^ 12 = t.toNat := by omega
  simp [comparator, BitVec.ult, BitVec.toNat_setWidth] at *
  omega

/-- A wire is high exactly when its counter is below the byte of its register that its colour selects. -/
theorem UnitState.wire_iff (u : UnitState) (i : Fin 4) (c : Colour) :
    u.wire i c = true ↔ (u.count i c).toNat < colourByte (u.colour i).toNat c := by
  rw [UnitState.wire, comparator_iff, UnitState.threshold, field_toNat]

end Sys2Proof.Machine
end

