-- ==== Sys2Proof/Laws/Events.lean ====
section
/-! SUPPORT. What an event can do, said once: `exec` answers a next state in one of the ways listed in `exec_cases`,
and every later frame or invariant is a case analysis over it. -/

namespace Sys2Proof.Machine

/-- The outcome of an event on the unit: its new state and the one response it gives. -/
inductive Effect (u : UnitState) : Instr → UnitState → Response → Prop
  | tick : Effect u .tick u.advance (.sample u.sample)
  | write (i : Fin 4) (value : Nat) : Effect u (.write i.val value) (u.setColour i (storedColour value)) .ok
  | read (i : Fin 4) : Effect u (.read i.val) u (.value (readValue (u.colour i)))
  | readWire (i : Fin 4) (c : Colour) : Effect u (.readWire i.val c) u (.bit (u.wire i c))
  | reset : Effect u .reset UnitState.reset .ok
  | badWrite (idx value : Nat) (h : 3 < idx) : Effect u (.write idx value) u (.err .invalidLedIndex)
  | badRead (idx : Nat) (h : 3 < idx) : Effect u (.read idx) u (.err .invalidLedIndex)
  | badReadWire (idx : Nat) (c : Colour) (h : 3 < idx) : Effect u (.readWire idx c) u (.err .invalidLedIndex)

/-- Every event has an effect on every unit state, and `exec` answers it: the unit's new state, one more response, and
the pending events as they were. -/
theorem exec_cases (i : Instr) (s : State) :
    ∃ u r, Effect s.unit i u r ∧ exec i s = .next { unit := u, pending := s.pending, responses := s.responses ++ [r] } := by
  cases i with
  | tick => exact ⟨_, _, .tick, rfl⟩
  | reset => exact ⟨_, _, .reset, rfl⟩
  | write idx value =>
    obtain ⟨k, rfl, -⟩ | ⟨h, -⟩ := ledOf?_cases idx
    · exact ⟨_, _, .write k value, by simp only [exec, execWrite, withLed_val]; rfl⟩
    · exact ⟨_, _, .badWrite idx value h, by simp only [exec, execWrite, withLed_of_gt h]; rfl⟩
  | read idx =>
    obtain ⟨k, rfl, -⟩ | ⟨h, -⟩ := ledOf?_cases idx
    · exact ⟨_, _, .read k, by simp only [exec, execRead, withLed_val]; rfl⟩
    · exact ⟨_, _, .badRead idx h, by simp only [exec, execRead, withLed_of_gt h]; rfl⟩
  | readWire idx c =>
    obtain ⟨k, rfl, -⟩ | ⟨h, -⟩ := ledOf?_cases idx
    · exact ⟨_, _, .readWire k c, by simp only [exec, execReadWire, withLed_val]; rfl⟩
    · exact ⟨_, _, .badReadWire idx c h, by simp only [exec, execReadWire, withLed_of_gt h]; rfl⟩

/-- The inversion of `exec`. -/
theorem exec_next {i : Instr} {s t : State} (h : exec i s = .next t) :
    ∃ r, Effect s.unit i t.unit r ∧ t.pending = s.pending ∧ t.responses = s.responses ++ [r] := by
  obtain ⟨u, r, he, hx⟩ := exec_cases i s
  rw [hx] at h
  cases h
  exact ⟨r, he, rfl, rfl⟩

/-- `exec` answers the effect an event has. -/
theorem Effect.exec_eq {s : State} {i : Instr} {u : UnitState} {r : Response} (he : Effect s.unit i u r) :
    exec i s = .next { unit := u, pending := s.pending, responses := s.responses ++ [r] } := by
  cases he with
  | tick => rfl
  | reset => rfl
  | write k value => simp only [exec, execWrite, withLed_val]; rfl
  | read k => simp only [exec, execRead, withLed_val]; rfl
  | readWire k c => simp only [exec, execReadWire, withLed_val]; rfl
  | badWrite idx value hi => simp only [exec, execWrite, withLed_of_gt hi]; rfl
  | badRead idx hi => simp only [exec, execRead, withLed_of_gt hi]; rfl
  | badReadWire idx c hi => simp only [exec, execReadWire, withLed_of_gt hi]; rfl

/-- An event has exactly one effect. -/
theorem Effect.unique {u v v' : UnitState} {i : Instr} {r r' : Response} (h : Effect u i v r) (h' : Effect u i v' r') :
    v = v' ∧ r = r' := by
  have e := (Effect.exec_eq (s := ⟨u, [], []⟩) h).symm.trans (Effect.exec_eq (s := ⟨u, [], []⟩) h')
  injection e with e
  injection e with e1 _ e3
  injection e3 with e4
  exact ⟨e1, e4⟩

end Sys2Proof.Machine
end

