-- ==== Sys2Proof/Laws/PerInstr.lean ====
section
/-! SUPPORT. The family `WordFields`: the number an event's word is, event by event. -/

namespace Sys2Proof.Laws.WordFields

/-- `OP` of an event (R61). -/
def opPart : Instr → Nat
  | .tick => 0
  | .write _ _ => 1
  | .read _ => 2
  | .readWire _ _ => 3
  | .reset => 4

/-- `IDX` of an event's word; 0 where the event does not use it. -/
def idxPart : Instr → Nat
  | .tick => 0
  | .write idx _ => idx
  | .read idx => idx
  | .readWire idx _ => idx
  | .reset => 0

/-- `CH` of an event's word; 0 where the event does not use it. -/
def chPart : Instr → Nat
  | .tick => 0
  | .write _ _ => 0
  | .read _ => 0
  | .readWire _ c => c.code
  | .reset => 0

/-- `VAL` of an event's word; 0 where the event does not use it. -/
def valPart : Instr → Nat
  | .tick => 0
  | .write _ value => value
  | .read _ => 0
  | .readWire _ _ => 0
  | .reset => 0

/-- A well-formed event's word is the sum of its parts, each at its place, and so has every reserved bit 0 (R60). -/
def Statement (i : Instr) : Prop :=
  i.wellFormed = true →
    (encodeWord i).toNat = opPart i * 2 ^ 60 + idxPart i * 2 ^ 40 + chPart i * 2 ^ 32 + valPart i

theorem tick : Statement .tick := fun _ => rfl

theorem reset : Statement .reset := fun _ => rfl

theorem idx_shift {idx : Nat} (h : idx ≤ 255) (low : EventWord) (hlow : low.toNat < 2 ^ 40) :
    ((BitVec.ofNat 64 idx <<< 40) ||| low).toNat = idx * 2 ^ 40 + low.toNat :=
  toNat_shift_or idx 40 low hlow (by omega)

theorem op_shift {op : Nat} (h : op < 16) (low : EventWord) (hlow : low.toNat < 2 ^ 60) :
    ((BitVec.ofNat 64 op <<< 60) ||| low).toNat = op * 2 ^ 60 + low.toNat :=
  toNat_shift_or op 60 low hlow (by omega)

theorem write (idx value : Nat) : Statement (.write idx value) := by
  intro h
  obtain ⟨hi, hv⟩ := (wellFormed_write_iff idx value).mp h
  have e0 : (BitVec.ofNat 64 value).toNat = value := by
    rw [BitVec.toNat_ofNat]
    omega
  have e1 := idx_shift hi (BitVec.ofNat 64 value) (by omega)
  have e2 := op_shift (op := 1) (by omega) ((BitVec.ofNat 64 idx <<< 40) ||| BitVec.ofNat 64 value) (by omega)
  simp only [encodeWord, BitVec.or_assoc, opPart, idxPart, chPart, valPart]
  omega

theorem read (idx : Nat) : Statement (.read idx) := by
  intro h
  have hi := (wellFormed_read_iff idx).mp h
  have e1 := idx_shift hi 0#64 (by decide)
  rw [BitVec.or_zero] at e1
  have e2 := op_shift (op := 2) (by omega) (BitVec.ofNat 64 idx <<< 40) (by rw [e1]; simp; omega)
  simp only [encodeWord, opPart, idxPart, chPart, valPart]
  simp only [BitVec.toNat_ofNat] at e1
  omega

theorem readWire (idx : Nat) (c : Colour) : Statement (.readWire idx c) := by
  intro h
  have hi := (wellFormed_readWire_iff idx c).mp h
  have hc := c.code_lt
  have e0 := toNat_shift_or c.code 32 0#64 (by decide) (by omega)
  rw [BitVec.or_zero] at e0
  simp only [BitVec.toNat_ofNat] at e0
  have e1 := idx_shift hi (BitVec.ofNat 64 c.code <<< 32) (by omega)
  have e2 := op_shift (op := 3) (by omega) ((BitVec.ofNat 64 idx <<< 40) ||| (BitVec.ofNat 64 c.code <<< 32)) (by omega)
  simp only [encodeWord, BitVec.or_assoc, opPart, idxPart, chPart, valPart]
  omega

end Sys2Proof.Laws.WordFields
end

