-- ==== Sys2Proof/Laws/Step.lean ====
section
/-! SUPPORT. What a step can do, said once, and how runs compose. -/

namespace Sys2Proof.Machine

theorem step_of_pending {s : State} {a : Applied} {rest : List Applied} (h : s.pending = a :: rest) :
    step s = match a.event? with
      | some i => exec i (s.setPending rest)
      | none => .next ((s.setPending rest).raise .illegalEvent) := by
  obtain ⟨u, p, r⟩ := s
  cases h
  rfl

/-- What one applied item does to the unit, and its response: an event's effect, or IllegalEvent. -/
inductive ItemEffect (u : UnitState) (a : Applied) : UnitState → Response → Prop
  | event {i : Instr} {v : UnitState} {r : Response} (ha : a.event? = some i) (he : Effect u i v r) : ItemEffect u a v r
  | illegal (ha : a.event? = none) : ItemEffect u a u (.err .illegalEvent)

/-- A step on a pending item answers a next state: the item is taken and gives one response. -/
theorem step_cases {s : State} {a : Applied} {rest : List Applied} (h : s.pending = a :: rest) :
    ∃ u r, ItemEffect s.unit a u r ∧ step s = .next { unit := u, pending := rest, responses := s.responses ++ [r] } := by
  rw [step_of_pending h]
  cases ha : a.event? with
  | none => exact ⟨_, _, .illegal ha, rfl⟩
  | some i =>
    obtain ⟨u, r, he, hx⟩ := exec_cases i (s.setPending rest)
    exact ⟨u, r, .event ha he, hx⟩

/-- The inversion of `step`: a next state comes of exactly one pending item. -/
theorem step_next {s t : State} (h : step s = .next t) :
    ∃ a r, s.pending = a :: t.pending ∧ ItemEffect s.unit a t.unit r ∧ t.responses = s.responses ++ [r] := by
  cases hp : s.pending with
  | nil => simp [step, State.fetch, hp] at h
  | cons a rest =>
    obtain ⟨u, r, he, hx⟩ := step_cases hp
    rw [hx] at h
    cases h
    exact ⟨a, r, rfl, he, rfl⟩

/-- A run takes its first step, then the rest. -/
theorem play_cons (a : Applied) (evs : List Applied) (s : State) :
    ∃ u r, ItemEffect s.unit a u r ∧
      play (a :: evs) s = play evs { unit := u, pending := [], responses := s.responses ++ [r] } := by
  obtain ⟨u, r, he, hx⟩ := step_cases (s := s.setPending (a :: evs)) (a := a) (rest := evs) rfl
  refine ⟨u, r, he, ?_⟩
  rw [play, List.length_cons, stepMany, hx]
  rfl

theorem play_nil (s : State) : play [] s = .next (s.setPending []) := rfl

end Sys2Proof.Machine
end

