-- ==== Sys2Proof/Tests/Slice0.lean ====
section
/-! SUPPORT. The model's own tests. Expected values are those of spec/95_test_vectors.md and of the examples in the rules;
each test names its vector. The last part shows, for every statement with hypotheses, values that meet them together. -/

namespace Sys2Proof.Tests

open Sys2Proof.Machine

/-! ## Helpers -/

/-- `reg = [r0, r1, r2, r3]`, `ctr = k`, in the notation of spec/95_test_vectors.md; no event pending, no response given. -/
def unitAt (r0 r1 r2 r3 : ColourReg) (k : Counter) : State where
  unit := { ledColor := ⟨r0, r1, r2, r3⟩, ctr := perChannel fun _ _ => k }
  pending := []
  responses := []

/-- The next state, if there is one. -/
def next? (o : Host.Outcome State Fault Refusal) : Option State :=
  match o with
  | .next t => some t
  | .fault _ => none
  | .refused _ => none

/-- The unit and the responses of the next state. -/
def result? (o : Host.Outcome State Fault Refusal) : Option (UnitState × List Response) :=
  (next? o).map fun t => (t.unit, t.responses)

/-- The response of the next state, if it is the only one. -/
def answer? (o : Host.Outcome State Fault Refusal) : Option Response :=
  match next? o with
  | some t => match t.responses with
    | [r] => some r
    | _ => none
  | none => none

/-! ## Well-formedness: each check refuses a term that breaks it -/

theorem test_write_index_256_has_no_word : (Instr.write 256 0).wellFormed = false := by decide
theorem test_write_value_2_32_has_no_word : (Instr.write 0 (2 ^ 32)).wellFormed = false := by decide
theorem test_read_index_256_has_no_word : (Instr.read 256).wellFormed = false := by decide
theorem test_readwire_index_256_has_no_word : (Instr.readWire 256 .red).wellFormed = false := by decide
/-- R63, R65: the largest index and value that have a word. -/
theorem test_widest_write_has_a_word : (Instr.write 255 (2 ^ 32 - 1)).wellFormed = true := by decide

/-! ## Decoding: words written out from the spec's encoding (section 2.1) -/

theorem test_decode_tick : decode 0x0000000000000000#64 = .event .tick := by decide
theorem test_decode_write : decode 0x100002007F000080#64 = .event (.write 2 0x7F000080) := by decide
theorem test_decode_write_largest_index : decode 0x1000FF0000000000#64 = .event (.write 255 0) := by decide
theorem test_decode_read : decode 0x2000010000000000#64 = .event (.read 1) := by decide
theorem test_decode_readwire : decode 0x3000030200000000#64 = .event (.readWire 3 .blue) := by decide
theorem test_decode_reset : decode 0x4000000000000000#64 = .event .reset := by decide
theorem test_decode_reserved_op : decode 0x5000000000000000#64 = .illegal .reservedOp := by decide
theorem test_decode_reserved_bit_48 : decode 0x0001000000000000#64 = .illegal .reservedBits := by decide
/-- R62 case 2, the lowest reserved bit. -/
theorem test_decode_reserved_bit_34 : decode 0x0000000400000000#64 = .illegal .reservedBits := by decide
theorem test_decode_tick_with_value : decode 0x0000000000000001#64 = .illegal .unusedField := by decide
theorem test_decode_write_with_colour : decode 0x1000000100000000#64 = .illegal .unusedField := by decide
theorem test_decode_readwire_with_value : decode 0x30000302FFFFFFFF#64 = .illegal .unusedField := by decide
theorem test_decode_colour_three : decode 0x3000000300000000#64 = .illegal .colourThree := by decide
theorem test_decode_table_word : decodeTableWord 64 0x3000030200000000 = some (.readWire 3 .blue) := by decide

/-- The word of program P2's `write 1, 0x445566`. -/
theorem test_encode_write : encode (.write 1 0x445566) = some 0x1000010000445566#64 := by decide
/-- The word of program P3's `readwire 1, g`. -/
theorem test_encode_readwire : encode (.readWire 1 .green) = some 0x3000010100000000#64 := by decide

/-! ## Events, one step each -/

/-- Section 2.2, third row: the sample is taken at 254, the wire goes low at 255. -/
theorem test_tick_samples_before_it_counts :
    result? (exec .tick (unitAt 0xFF0000#24 0#24 0#24 0#24 254#12)) =
      some ((unitAt 0xFF0000#24 0#24 0#24 0#24 255#12).unit,
        [.sample ⟨⟨true, false, false⟩, ⟨false, false, false⟩, ⟨false, false, false⟩, ⟨false, false, false⟩⟩]) := by
  decide
/-- Section 2.2, fifth row: 4095 wraps to 0. -/
theorem test_tick_wraps :
    (next? (exec .tick (unitAt 0xFFFFFF#24 0#24 0#24 0#24 4095#12))).map (fun t => t.unit.count 3 .blue) =
      some 0#12 := by decide
/-- Section 2.4, second row. -/
theorem test_write_truncates :
    result? (exec (.write 1 0x01ABCDEF) (unitAt 0#24 0#24 0#24 0#24 7#12)) =
      some ((unitAt 0#24 0xABCDEF#24 0#24 0#24 7#12).unit, [.ok]) := by decide
/-- Section 2.4, seventh row: the index is not masked to 3. -/
theorem test_write_index_255_is_not_masked :
    result? (exec (.write 255 0) (unitAt 1#24 2#24 3#24 4#24 7#12)) =
      some ((unitAt 1#24 2#24 3#24 4#24 7#12).unit, [.err .invalidLedIndex]) := by decide
/-- Section 2.5, second row. -/
theorem test_read_gives_the_register :
    result? (exec (.read 1) (unitAt 0#24 0xABCDEF#24 0#24 0#24 1#12)) =
      some ((unitAt 0#24 0xABCDEF#24 0#24 0#24 1#12).unit, [.value 0x00ABCDEF#32]) := by decide
/-- Section 2.5, fourth row. -/
theorem test_read_index_4 :
    answer? (exec (.read 4) (unitAt 1#24 2#24 3#24 4#24 0#12)) = some (.err .invalidLedIndex) := by decide
/-- Section 2.3, the state table's first row. -/
theorem test_readwire_blue_at_15 :
    answer? (exec (.readWire 2 .blue) (unitAt 0#24 0#24 0x000010#24 0#24 15#12)) = some (.bit true) := by decide
/-- Section 2.3: 257 against 2, zero-extension and not a comparison modulo 256. -/
theorem test_readwire_at_257 :
    answer? (exec (.readWire 0 .green) (unitAt 0x000200#24 0#24 0#24 0#24 257#12)) = some (.bit false) := by decide
/-- Section 2.6, first row. -/
theorem test_reset_clears :
    result? (exec .reset (unitAt 0xFFFFFF#24 1#24 2#24 3#24 1000#12)) =
      some ((unitAt 0#24 0#24 0#24 0#24 0#12).unit, [.ok]) := by decide
/-- Section 2.7, second row: decoding fails first, and the index 4 is never checked. -/
theorem test_step_answers_illegal_event_first :
    answer? (step (State.reset.withFetchWord 64 0x1000040100000001)) = some (.err .illegalEvent) := by decide
/-- Section 2.7, first row, through a step. -/
theorem test_step_runs_a_word :
    answer? (step (State.reset.withFetchWord 64 0x1000040000000001)) = some (.err .invalidLedIndex) := by decide

/-! ## Text -/

/-- Program P3, first line. -/
theorem test_assemble_setrgb :
    assembleLine ['s', 'e', 't', 'r', 'g', 'b', ' ', '1', ',', ' ', '0', ',', ' ', '3', ',', ' ', '2', ' ', ';', 'x'] =
      some [0x1000010000000302#64] := by decide
/-- Program P1, first line. -/
theorem test_assemble_write_hex :
    assembleLine ['w', 'r', 'i', 't', 'e', ' ', '0', ',', ' ', '0', 'x', 'F', 'F', '0', '0', '0', '0'] =
      some [0x1000000000FF0000#64] := by decide
/-- R71: `tick 2` is two ticks. -/
theorem test_assemble_tick_two : assembleLine ['t', 'i', 'c', 'k', ' ', '2'] = some [0#64, 0#64] := by decide
/-- R71: a component over 255 is rejected. -/
theorem test_assemble_setrgb_256_is_rejected :
    assembleLine ['s', 'e', 't', 'r', 'g', 'b', ' ', '1', ',', '2', '5', '6', ',', '3', ',', '2'] = none := by decide
/-- Section 2.2, second row: the printed form of a sample. -/
theorem test_sample_text :
    sampleText (unitAt 0xFF0000#24 0#24 0#24 0#24 0#12).unit.sample =
      ['L', '0', '=', '1', '0', '0', ' ', 'L', '1', '=', '0', '0', '0', ' ', 'L', '2', '=', '0', '0', '0', ' ',
       'L', '3', '=', '0', '0', '0'] := by decide

/-! ## Witnesses: values that meet the hypotheses of each statement together -/

/-- Two words of a step, and a third item: a legal word, an illegal word, an abstract event without a word. -/
def pendingState : State :=
  (unitAt 0xFF0000#24 0x00FF00#24 0#24 0x0000FF#24 7#12).setPending
    [.word 0x1000030000010101#64, .word 0x5000000000000000#64, .event (.write 0 (2 ^ 40 + 0x000102))]

theorem witness_EncodedEventsDecodeBack : (Instr.write 255 (2 ^ 32 - 1)).wellFormed = true := by decide
theorem witness_DecodedWordsEncodeBack : decode 0x1000FF00FFFFFFFF#64 = .event (.write 255 (2 ^ 32 - 1)) := by decide
/-- A WRITE of 2^32 to a register, and each event of an index that has no word. -/
theorem witness_OverWideEventsHaveNoWordAndStillRun :
    encode (.write (3 : Fin 4).val (2 ^ 32)) = none ∧ (encode (.write 4 (2 ^ 32)) = none ∧ 3 < 4) ∧
      (encode (.write 256 0) = none ∧ 3 < 256) ∧ encode (.read 256) = none ∧ encode (.readWire 256 .blue) = none := by
  decide
theorem witness_DecoderAgreesWithTheOpcodeMap :
    decode 0x3000030200000000#64 = .event (.readWire 3 .blue) ∧
      (⟨"readwire", 0x3000000000000000#64, 0xFFFF00FCFFFFFFFF#64, true⟩ : OpcodeRow) ∈ opcodeRows ∧
      (⟨"readwire", 0x3000000000000000#64, 0xFFFF00FCFFFFFFFF#64, true⟩ : OpcodeRow).accepts 0x3000030200000000#64 = true ∧
      0x3000030200000000#64 &&& 0xFFFF00FCFFFFFFFF#64 = 0x3000000000000000#64 := by decide
theorem witness_StepRunsTheNextEvent :
    pendingState.pending = .word 0x1000030000010101#64 ::
        [.word 0x5000000000000000#64, .event (.write 0 (2 ^ 40 + 0x000102))] ∧
      decode 0x1000030000010101#64 = .event (.write 3 0x010101) ∧
      (pendingState.setPending [.event .reset]).pending = .event .reset :: [] := by decide
theorem witness_PlacedWordRunsNext : decode 0x4000000000000000#64 = .event .reset := by decide
theorem witness_IllegalWordOnlyAnswersTheError :
    (pendingState.setPending [.word 0x3000070300000000#64]).pending = .word 0x3000070300000000#64 :: [] ∧
      decode 0x3000070300000000#64 = .illegal .colourThree := by decide
theorem witness_EveryAppliedItemCompletesInOneStep :
    pendingState.pending = .word 0x1000030000010101#64 :: pendingState.pending.tail ∧
      State.reset.pending = [] := by decide
theorem witness_WriteStoresTheLow24Bits : (3 : Fin 4) ≠ 0 := by decide
theorem witness_InvalidIndexOnlyAnswersTheError : 3 < 4 := by decide
theorem witness_OnlyInvalidIndexesFail :
    (Response.err .invalidLedIndex).isError = true ∧
      answer? (exec (.readWire 4 .red) State.reset) = some (.err .invalidLedIndex) := by decide
theorem witness_ReadsArePureAndWritesAreIdempotent : (3 : Fin 4).val ≠ 4 ∧ (0 : Fin 4).val ≠ 3 := by decide
theorem witness_WriteChangesNoOtherLed : (0 : Fin 4) ≠ 3 := by decide
theorem witness_CountersAreWrittenByTickAndResetAndReadByNoEvent :
    (∃ t, exec .tick pendingState = .next t) ∧ (∃ t, exec (.write 3 1) pendingState = .next t) ∧
      Instr.write 3 1 ≠ .tick ∧ Instr.write 3 1 ≠ .reset ∧
      (unitAt 1#24 1#24 1#24 1#24 300#12).unit.ledColor = (unitAt 1#24 1#24 1#24 1#24 301#12).unit.ledColor ∧
      (unitAt 1#24 1#24 1#24 1#24 300#12).unit.sample = (unitAt 1#24 1#24 1#24 1#24 301#12).unit.sample ∧
      (unitAt 1#24 1#24 1#24 1#24 300#12).unit.ctr ≠ (unitAt 1#24 1#24 1#24 1#24 301#12).unit.ctr :=
  ⟨⟨_, rfl⟩, ⟨_, rfl⟩, by decide, by decide, by decide, by decide, by decide⟩
theorem witness_RegistersAreWrittenByWriteAndResetOnly :
    (∃ t, exec (.write 3 1) pendingState = .next t) ∧ Instr.write 3 1 ≠ .reset ∧
      ∀ value, Instr.write 3 1 ≠ .write (0 : Fin 4).val value :=
  ⟨⟨_, rfl⟩, by decide, fun _ h => by injection h with h; exact absurd h (by decide)⟩
theorem witness_ChannelsAreIndependent :
    (∃ t, exec (.read 3) pendingState = .next t) ∧ Instr.read 3 ≠ .tick ∧ Instr.read 3 ≠ .reset ∧
      (∃ t, exec .tick pendingState = .next t) ∧ (∃ t, exec .tick (pendingState.setPending []) = .next t) ∧
      pendingState.unit.count 3 .blue = (pendingState.setPending []).unit.count 3 .blue ∧
      pendingState.unit.colour 3 = (pendingState.setPending []).unit.colour 3 ∧
      allChannels.reverse.Perm allChannels :=
  ⟨⟨_, rfl⟩, by decide, by decide, ⟨_, rfl⟩, ⟨_, rfl⟩, rfl, rfl, List.reverse_perm _⟩
theorem witness_WritesAreNeverSeenTorn :
    ∀ a ∈ [Applied.event .tick, .event (.write 2 1), .event (.write 4 1), .word 0x5000000000000000#64, .event (.read 3)],
      a.writesTo 3 = false ∧ a.isReset = false := by decide
theorem witness_WireIsHighOnlyInTheFirstSubBlock :
    256 ≤ ((unitAt 0xFF0000#24 0#24 0#24 0#24 256#12).unit.count 0 .red).toNat ∧
      (unitAt 0xFF0000#24 0#24 0#24 0#24 256#12).unit.threshold 3 .blue = 0#8 := by decide
theorem witness_TicksFollowTheClosedForm : 0 < 1 ∧ 4095 < 4096 := by decide
theorem witness_CountersCountTicksSinceReset :
    ∀ a ∈ [Applied.event .tick, .word 0x5000000000000000#64, .event (.write 4 1), .word 0#64], a.isReset = false := by
  decide
theorem witness_StepKeepsTheCountersEqual :
    pendingState.unit.CountersAgree ∧ ∃ t, step pendingState = .next t := ⟨by decide, ⟨_, rfl⟩⟩
theorem witness_ReadAnswersTheLastWriteAcrossAnyEvents :
    ∀ a ∈ [Applied.event .tick, .event (.write 3 1), .event (.write 4 1), .word 0x5000000000000000#64],
      a.writesTo 0 = false ∧ a.isReset = false := by decide
theorem witness_ReadBeforeAnyWriteAnswersTheResetValue :
    ∀ a ∈ [Applied.word 0#64, .event (.write 0 1), .event (.read 3)], a.writesTo 3 = false ∧ a.isReset = false := by
  decide
theorem witness_ARunIsErrorFreeExactlyWithoutFailingEvents :
    pendingState.errorFree = true ∧ (Applied.event (.read 3)).failing = false ∧
      (Applied.event (.read 4)).failing = true := by decide
theorem witness_RegistersLearnNothingOfTheCounters :
    (unitAt 1#24 2#24 3#24 4#24 0#12).unit.ledColor = (unitAt 1#24 2#24 3#24 4#24 4095#12).unit.ledColor ∧
      (unitAt 1#24 2#24 3#24 4#24 0#12).responses = (unitAt 1#24 2#24 3#24 4#24 4095#12).responses ∧
      (∀ wires, Response.ok ≠ .sample wires) ∧ ∀ b, Response.ok ≠ .bit b :=
  ⟨rfl, rfl, nofun, nofun⟩
theorem witness_OneSharedCounterIsARefinement :
    (unitAt 1#24 2#24 3#24 4#24 9#12).unit = (SharedUnit.mk ⟨1#24, 2#24, 3#24, 4#24⟩ 9#12).expand := by decide
/-- The hypotheses of the statement, at a state whose copies are current and at one whose copies are not. -/
theorem witness_CopyingTheThresholdAtEachTickAgrees :
    (CopyUnit.mk pendingState.unit pendingState.unit.thresholds).current ∧
      ¬ (CopyUnit.mk pendingState.unit (perChannel fun _ _ => 0#8)).current ∧
      (∀ idx c, Instr.tick ≠ .readWire idx c) ∧ ∀ idx value, Instr.readWire 0 .red ≠ .write idx value :=
  ⟨rfl, by unfold CopyUnit.current; decide, nofun, nofun⟩
theorem witness_BusAccessesAreWholeRegisterEvents :
    addressesDistinct ⟨0, 4, 8, 12, 32, 1⟩ ∧ 4 ≠ 3 ∧ ∀ i, 16 ≠ ledColorAddr ⟨0, 4, 8, 12, 32, 1⟩ i := by decide
theorem witness_SetrgbAndOffSetTheThresholds : 255 ≤ 255 ∧ 0 ≤ 255 ∧ 255 < 256 := by decide
theorem witness_EventTextAssemblesToItsWord : (Instr.readWire 255 .blue).wellFormed = true := by decide

end Sys2Proof.Tests
end

/-! PROOF. A WRITE is confined to the register it names (spec/20_memory.md R53). -/

namespace Sys2Proof.Machine

/-- A wire reads its own register and its own counter only, so replacing another LED's register leaves it (R53). -/
theorem UnitState.setColour_wire_ne (u : UnitState) {i k : Fin 4} (v : ColourReg) (c : Colour) (h : i ≠ k) :
    (u.setColour i v).wire k c = u.wire k c := by
  simp only [UnitState.wire, UnitState.threshold, UnitState.setColour_count, u.setColour_colour_ne v h]

/-- Settles O20: the WRITE's effect is one `setColour` of register `i`, and its frame covers register `k`, the counters
and the wires of LED `k`. -/
theorem writeChangesNoOtherLed : Obligations.WriteChangesNoOtherLed := by
  intro s i k value hne
  have hwrite := (Effect.write (u := s.unit) i value).exec_eq
  exact ⟨_, hwrite, s.unit.setColour_colour_ne _ hne, s.unit.setColour_ctr i _,
    fun c => s.unit.setColour_wire_ne _ c hne⟩

end Sys2Proof.Machine

/-! PROOF. The twelve channels are independent (spec/40_pwm_channel.md R90). -/

namespace Sys2Proof.Machine

/-! ## One counter replaced -/

@[simp] theorem UnitState.setCount_colour (u : UnitState) (i k : Fin 4) (c : Colour) (v : Counter) :
    (u.setCount i c v).colour k = u.colour k := rfl

@[simp] theorem UnitState.setCount_count_self (u : UnitState) (i : Fin 4) (c : Colour) (v : Counter) :
    (u.setCount i c v).count i c = v := by
  simp [UnitState.setCount, UnitState.count, channel]

theorem UnitState.setCount_count_ne (u : UnitState) {i k : Fin 4} {c d : Colour} (v : Counter)
    (h : (i, c) ≠ (k, d)) : (u.setCount i c v).count k d = u.count k d := by
  simp only [UnitState.setCount, UnitState.count, channel]
  by_cases hi : i = k
  · subst hi
    have hc : c ≠ d := fun hc => h (by rw [hc])
    rw [PerLed.get_set_self, Rgb.get_set_ne _ v hc]
  · rw [PerLed.get_set_ne _ _ hi]

/-! ## Channels advanced one after another -/

/-- Advancing channels writes no colour register. -/
theorem UnitState.foldl_advanceChannel_colour (order : List (Fin 4 × Colour)) (u : UnitState) (i : Fin 4) :
    (order.foldl UnitState.advanceChannel u).colour i = u.colour i := by
  induction order generalizing u with
  | nil => rfl
  | cons ch rest ih => rw [List.foldl_cons, ih, UnitState.advanceChannel, UnitState.setCount_colour]

/-- A channel's counter is incremented once for each time the channel stands in the list, so the list's order does not
matter. -/
theorem UnitState.foldl_advanceChannel_count (order : List (Fin 4 × Colour)) (u : UnitState) (i : Fin 4) (c : Colour) :
    (order.foldl UnitState.advanceChannel u).count i c = nextCount^[order.count (i, c)] (u.count i c) := by
  induction order generalizing u with
  | nil => rfl
  | cons ch rest ih =>
    rw [List.foldl_cons, ih, UnitState.advanceChannel]
    by_cases h : ch = (i, c)
    · subst h
      rw [UnitState.setCount_count_self, List.count_cons_self, Function.iterate_succ_apply]
    · rw [UnitState.setCount_count_ne u _ h, List.count_cons_of_ne h]

/-- Every channel stands exactly once in the list of all channels. -/
theorem count_allChannels (i : Fin 4) (c : Colour) : allChannels.count (i, c) = 1 :=
  List.count_eq_one_of_mem (by decide) (allChannels_complete.2 i c)

/-- The twelve channels advanced one after another, in any order, are the twelve advanced at once (R90). -/
theorem UnitState.foldl_advanceChannel_of_perm (u : UnitState) {order : List (Fin 4 × Colour)}
    (h : order.Perm allChannels) : order.foldl UnitState.advanceChannel u = u.advance := by
  refine UnitState.ext_access (fun i => ?_) fun i c => ?_
  · rw [UnitState.foldl_advanceChannel_colour, UnitState.advance_colour]
  · have honce : order.count (i, c) = 1 := (h.count_eq _).trans (count_allChannels i c)
    rw [UnitState.foldl_advanceChannel_count, honce, Function.iterate_one, UnitState.advance_count]

/-! ## What a counter and a wire depend on -/

/-- An event that is neither TICK nor RESET leaves every counter (R90). -/
theorem Effect.count_eq {u v : UnitState} {e : Instr} {r : Response} (he : Effect u e v r) (htick : e ≠ .tick)
    (hreset : e ≠ .reset) (i : Fin 4) (c : Colour) : v.count i c = u.count i c := by
  cases he with
  | tick => exact absurd rfl htick
  | reset => exact absurd rfl hreset
  | write k value => exact u.setColour_count k i c _
  | read | readWire | badWrite | badRead | badReadWire => rfl

/-- TICK advances the unit. -/
theorem unit_of_exec_tick {s t : State} (h : exec .tick s = .next t) : t.unit = s.unit.advance := by
  obtain ⟨r, he, -, -⟩ := exec_next h
  exact (he.unique .tick).1

/-- A wire reads only its own counter and its LED's register (R90). -/
theorem UnitState.wire_congr {u v : UnitState} {i : Fin 4} {c : Colour} (hcount : u.count i c = v.count i c)
    (hcolour : u.colour i = v.colour i) : u.wire i c = v.wire i c := by
  simp only [UnitState.wire, UnitState.threshold, hcount, hcolour]

/-- Settles O23: the counters' frame is read off `Effect`, a count after TICK is the increment of the count before, and
any order of the twelve channels holds each of them once. -/
theorem channelsAreIndependent : Obligations.ChannelsAreIndependent := by
  refine ⟨fun e s t h htick hreset i c => ?_, fun s₁ s₂ t₁ t₂ i c h₁ h₂ hcount => ?_,
    fun u v i c => UnitState.wire_congr, fun s order hperm => ?_⟩
  · obtain ⟨r, he, -, -⟩ := exec_next h
    exact he.count_eq htick hreset i c
  · rw [unit_of_exec_tick h₁, unit_of_exec_tick h₂, UnitState.advance_count, UnitState.advance_count, hcount]
  · exact ⟨_, Effect.tick.exec_eq, (s.unit.foldl_advanceChannel_of_perm hperm).symm⟩

end Sys2Proof.Machine

/-! PROOF. The fields are the register's three bytes (spec/41_led_controller.md R100). -/

namespace Sys2Proof.Machine

/-- Below `2 ^ 24` nothing lies above the Red byte, so it is the whole quotient (R100). -/
theorem colourByte_red_of_lt {n : Nat} (h : n < 2 ^ 24) : colourByte n .red = n / 2 ^ 16 :=
  Nat.mod_eq_of_lt (by omega)

/-- A number below `2 ^ 24` is the sum of its three colour bytes at their places (R100). -/
theorem eq_sum_colourByte_of_lt {n : Nat} (h : n < 2 ^ 24) :
    n = colourByte n .red * 2 ^ 16 + colourByte n .green * 2 ^ 8 + colourByte n .blue := by
  rw [colourByte_red_of_lt h]
  simp only [colourByte]
  omega

/-- Settles O25: each field is its `colourByte`, and the bound of a 24-bit register makes the Red byte the whole quotient
and the three bytes the whole register. -/
theorem fieldsAreTheRegistersBytes : Obligations.FieldsAreTheRegistersBytes := by
  intro r
  simp only [field_toNat]
  exact ⟨colourByte_red_of_lt r.isLt, rfl, rfl, eq_sum_colourByte_of_lt r.isLt⟩

end Sys2Proof.Machine

/-! PROOF. The decoder and the encoder are inverse to each other, the reserved words, and the opcode map
(spec/30_encoding.md sections 2 to 4). The decoder is characterised once, by the six fields of a word
(`decode_eq_event_iff_hasFields`). -/

namespace Sys2Proof

open Laws.WordFields

/-! ## The fields of a word -/

/-- The word has these numbers in its fields, and every reserved bit is 0. -/
structure HasFields (w : EventWord) (op idx ch val : Nat) : Prop where
  op : (opField w).toNat = op
  reservedHigh : (reservedHighField w).toNat = 0
  idx : (idxField w).toNat = idx
  reservedLow : (reservedLowField w).toNat = 0
  ch : (chField w).toNat = ch
  val : (valField w).toNat = val

/-- A word with the given fields is the sum of them, each at its place (R60). -/
theorem hasFields_iff_toNat {w : EventWord} {op idx ch val : Nat} (hop : op < 16) (hidx : idx < 256) (hch : ch < 4)
    (hval : val < 2 ^ 32) :
    HasFields w op idx ch val ↔ w.toNat = op * 2 ^ 60 + idx * 2 ^ 40 + ch * 2 ^ 32 + val := by
  have hw := w.isLt
  constructor
  · rintro ⟨h1, h2, h3, h4, h5, h6⟩
    rw [opField_toNat] at h1
    rw [reservedHighField_toNat] at h2
    rw [idxField_toNat] at h3
    rw [reservedLowField_toNat] at h4
    rw [chField_toNat] at h5
    rw [valField_toNat] at h6
    omega
  · intro h
    constructor
    · rw [opField_toNat]; omega
    · rw [reservedHighField_toNat]; omega
    · rw [idxField_toNat]; omega
    · rw [reservedLowField_toNat]; omega
    · rw [chField_toNat]; omega
    · rw [valField_toNat]; omega

/-! ## The decoder -/

theorem whenUnusedZero_eq_event_iff {unusedZero : Bool} {i j : Instr} :
    whenUnusedZero unusedZero i = .event j ↔ unusedZero = true ∧ i = j := by
  cases unusedZero <;> simp [whenUnusedZero]

theorem whenUnusedZero_illegal_iff {unusedZero : Bool} {i : Instr} :
    (∃ why, whenUnusedZero unusedZero i = .illegal why) ↔ unusedZero = false := by
  cases unusedZero <;> simp [whenUnusedZero]

theorem decodeReadWire_eq_event_iff {w : EventWord} {i : Instr} :
    decodeReadWire w = .event i ↔
      ∃ c, i = .readWire (idxField w).toNat c ∧ (chField w).toNat = c.code ∧ valField w = 0 := by
  unfold decodeReadWire
  constructor
  · intro h
    split at h
    · next c hc =>
      obtain ⟨hval, rfl⟩ := whenUnusedZero_eq_event_iff.mp h
      exact ⟨c, rfl, colourOfCode_eq_some hc, by simpa using hval⟩
    · cases h
  · rintro ⟨c, rfl, hc, hval⟩
    simp [hc, colourOfCode_code, hval, whenUnusedZero]

/-- The decoder reads an event exactly from the words that hold the event's own fields and 0 elsewhere (R61 to R66). -/
theorem decode_eq_event_iff_hasFields (w : EventWord) (i : Instr) :
    decode w = .event i ↔ HasFields w (opPart i) (idxPart i) (chPart i) (valPart i) := by
  constructor
  · intro h
    unfold decode at h
    split at h
    · cases h
    split at h
    · cases h
    next hres =>
    obtain ⟨hhigh, hlow⟩ : (reservedHighField w).toNat = 0 ∧ (reservedLowField w).toNat = 0 := by
      simpa only [field_eq_zero_iff, ne_eq, not_or, not_not] using hres
    split at h
    case h_4 hop =>
      obtain ⟨c, rfl, hch, hval⟩ := decodeReadWire_eq_event_iff.mp h
      exact ⟨hop, hhigh, rfl, hlow, hch, by rw [hval]; rfl⟩
    case h_6 => cases h
    all_goals
      obtain ⟨hzero, rfl⟩ := whenUnusedZero_eq_event_iff.mp h
      simp only [Bool.and_eq_true, beq_iff_eq, field_eq_zero_iff] at hzero
    case h_1 hop | h_5 hop =>
      obtain ⟨⟨hidx, hch⟩, hval⟩ := hzero
      exact ⟨hop, hhigh, hidx, hlow, hch, hval⟩
    case h_2 hop => exact ⟨hop, hhigh, rfl, hlow, hzero, rfl⟩
    case h_3 hop => exact ⟨hop, hhigh, rfl, hlow, hzero.1, hzero.2⟩
  · rintro ⟨hop, hhigh, hidx, hlow, hch, hval⟩
    rw [← field_eq_zero_iff] at hhigh hlow
    cases i with
    | tick | reset =>
      simp only [idxPart, chPart, valPart, ← field_eq_zero_iff] at hidx hch hval
      simp [decode, hop, opPart, hhigh, hlow, hidx, hch, hval, whenUnusedZero]
    | write idx value =>
      simp only [chPart, ← field_eq_zero_iff] at hch
      simp [decode, hop, opPart, hhigh, hlow, hidx, idxPart, hch, hval, valPart, whenUnusedZero]
    | read idx =>
      simp only [chPart, valPart, ← field_eq_zero_iff] at hch hval
      simp [decode, hop, opPart, hhigh, hlow, hidx, idxPart, hch, hval, whenUnusedZero]
    | readWire idx c =>
      simp only [valPart, ← field_eq_zero_iff] at hval
      have hwire : decodeReadWire w = .event (.readWire idx c) :=
        decodeReadWire_eq_event_iff.mpr ⟨c, by rw [hidx, idxPart], hch, hval⟩
      simp [decode, hop, opPart, hhigh, hlow, hwire]

/-! ## Decoder and encoder (R66, R67) -/

theorem opPart_lt (i : Instr) : opPart i < 16 := by
  cases i <;> simp [opPart]

theorem chPart_lt (i : Instr) : chPart i < 4 := by
  cases i with
  | readWire idx c => exact c.code_lt.trans (by omega)
  | tick | write | read | reset => simp [chPart]

/-- An event is well-formed exactly if its operands fit their fields. -/
theorem wellFormed_iff_parts (i : Instr) : i.wellFormed = true ↔ idxPart i < 256 ∧ valPart i < 2 ^ 32 := by
  cases i with
  | tick | reset => simp [Instr.wellFormed, idxPart, valPart]
  | write idx value => rw [wellFormed_write_iff, idxPart, valPart, ← Nat.lt_succ_iff]
  | read idx => simp [wellFormed_read_iff, idxPart, valPart, Nat.lt_succ_iff]
  | readWire idx c => simp [wellFormed_readWire_iff, idxPart, valPart, Nat.lt_succ_iff]

/-- The family `WordFields`, over all events. -/
theorem encodeWord_toNat (i : Instr) : Statement i := by
  cases i with
  | tick => exact tick
  | write idx value => exact write idx value
  | read idx => exact read idx
  | readWire idx c => exact readWire idx c
  | reset => exact reset

/-- The decoder reads an event from its word and from no other. -/
theorem decode_eq_event_iff (w : EventWord) (i : Instr) :
    decode w = .event i ↔ i.wellFormed = true ∧ encodeWord i = w := by
  rw [decode_eq_event_iff_hasFields]
  constructor
  · intro h
    have hwf : i.wellFormed = true :=
      (wellFormed_iff_parts i).mpr ⟨h.idx ▸ (idxField w).isLt, h.val ▸ (valField w).isLt⟩
    obtain ⟨hidx, hval⟩ := (wellFormed_iff_parts i).mp hwf
    have hw := (hasFields_iff_toNat (opPart_lt i) hidx (chPart_lt i) hval).mp h
    exact ⟨hwf, BitVec.eq_of_toNat_eq ((encodeWord_toNat i hwf).trans hw.symm)⟩
  · rintro ⟨hwf, rfl⟩
    obtain ⟨hidx, hval⟩ := (wellFormed_iff_parts i).mp hwf
    exact (hasFields_iff_toNat (opPart_lt i) hidx (chPart_lt i) hval).mpr (encodeWord_toNat i hwf)

theorem encode_eq_some_iff (i : Instr) (w : EventWord) :
    encode i = some w ↔ i.wellFormed = true ∧ encodeWord i = w := by
  simp [encode]

theorem encode_eq_none_iff (i : Instr) : encode i = none ↔ ¬ i.wellFormed = true := by
  simp [encode]

/-- Settles O2: the decoder reads from the encoder's word the event it was made of. -/
theorem encodedEventsDecodeBack : Obligations.EncodedEventsDecodeBack := fun i hwf =>
  ⟨encodeWord i, (encode_eq_some_iff i _).mpr ⟨hwf, rfl⟩, (decode_eq_event_iff _ i).mpr ⟨hwf, rfl⟩⟩

/-- Settles O3: a word with an event's fields is the sum of them, as the event's own word is. -/
theorem decodedWordsEncodeBack : Obligations.DecodedWordsEncodeBack := fun w i h =>
  have hword := (decode_eq_event_iff w i).mp h
  ⟨hword.1, (encode_eq_some_iff i w).mpr hword⟩

/-- Settles O1: each word is computed. -/
theorem listedWordsDecodeAsListed : Obligations.ListedWordsDecodeAsListed := by
  refine ⟨?_, ?_, ?_, ?_, ?_, ?_, ?_, ⟨.reservedOp, ?_⟩, ⟨.unusedField, ?_⟩, ⟨.colourThree, ?_⟩⟩ <;> decide

/-! ## The reserved words (R62) -/

/-- Of the values of `CH`, only 3 selects no colour (R64). -/
theorem colourOfCode_cases {n : Nat} (h : n < 4) :
    (n = 3 ∧ colourOfCode n = none) ∨ (n ≠ 3 ∧ ∃ c, colourOfCode n = some c) := by
  match n, h with
  | 0, _ => exact .inr ⟨by decide, .red, rfl⟩
  | 1, _ => exact .inr ⟨by decide, .green, rfl⟩
  | 2, _ => exact .inr ⟨by decide, .blue, rfl⟩
  | 3, _ => exact .inl ⟨rfl, rfl⟩

theorem decodeReadWire_illegal_iff (w : EventWord) :
    (∃ why, decodeReadWire w = .illegal why) ↔ valField w ≠ 0 ∨ (chField w).toNat = 3 := by
  unfold decodeReadWire
  obtain ⟨hch, hnone⟩ | ⟨hch, c, hsome⟩ := colourOfCode_cases (chField w).isLt
  · exact ⟨fun _ => .inr hch, fun _ => ⟨.colourThree, by rw [hnone]⟩⟩
  · simp [hsome, hch, whenUnusedZero_illegal_iff]

/-- R62's four cases, in terms of the fields. -/
theorem decode_illegal_iff_fields (w : EventWord) :
    (∃ why, decode w = .illegal why) ↔
      5 ≤ (opField w).toNat ∨ reservedHighField w ≠ 0 ∨ reservedLowField w ≠ 0 ∨
      ((opField w).toNat = 0 ∧ (idxField w ≠ 0 ∨ chField w ≠ 0 ∨ valField w ≠ 0)) ∨
      ((opField w).toNat = 1 ∧ chField w ≠ 0) ∨
      ((opField w).toNat = 2 ∧ (chField w ≠ 0 ∨ valField w ≠ 0)) ∨
      ((opField w).toNat = 3 ∧ valField w ≠ 0) ∨
      ((opField w).toNat = 4 ∧ (idxField w ≠ 0 ∨ chField w ≠ 0 ∨ valField w ≠ 0)) ∨
      ((opField w).toNat = 3 ∧ (chField w).toNat = 3) := by
  by_cases hop : 5 ≤ (opField w).toNat
  · simp [decode, hop]
  by_cases hres : reservedHighField w ≠ 0 ∨ reservedLowField w ≠ 0
  · simp only [decode, ge_iff_le, hop, hres, if_true, if_false, Decoded.illegal.injEq, exists_eq', true_iff]
    tauto
  obtain ⟨hhigh, hlow⟩ : reservedHighField w = 0 ∧ reservedLowField w = 0 := by simpa using hres
  obtain h | h | h | h | h : (opField w).toNat = 0 ∨ (opField w).toNat = 1 ∨ (opField w).toNat = 2 ∨
      (opField w).toNat = 3 ∨ (opField w).toNat = 4 := by omega
  · simp [decode, h, hhigh, hlow, whenUnusedZero_illegal_iff, imp_iff_not_or, or_assoc]
  · simp [decode, h, hhigh, hlow, whenUnusedZero_illegal_iff]
  · simp [decode, h, hhigh, hlow, whenUnusedZero_illegal_iff, imp_iff_not_or]
  · simp [decode, h, hhigh, hlow, decodeReadWire_illegal_iff]
  · simp [decode, h, hhigh, hlow, whenUnusedZero_illegal_iff, imp_iff_not_or, or_assoc]

/-- Settles O5: the cases in terms of the fields, each field read off the word's number. -/
theorem illegalWordsAreExactlyTheReservedOnes : Obligations.IllegalWordsAreExactlyTheReservedOnes := by
  intro w
  have hop : (opField w).toNat = w.toNat / 2 ^ 60 := by
    have hw := w.isLt
    rw [opField_toNat]
    omega
  rw [decode_illegal_iff_fields]
  simp only [ne_eq, field_eq_zero_iff, hop, reservedHighField_toNat, reservedLowField_toNat, idxField_toNat,
    chField_toNat, valField_toNat]
  rfl

/-! ## The opcode map (section 4) -/

/-- Two words are equal if their six fields are: the fields are all of the word (R60). -/
theorem eq_of_fields {v w : EventWord} (hop : opField v = opField w) (hhigh : reservedHighField v = reservedHighField w)
    (hidx : idxField v = idxField w) (hlow : reservedLowField v = reservedLowField w) (hch : chField v = chField w)
    (hval : valField v = valField w) : v = w := by
  have hv := v.isLt
  have hw := w.isLt
  apply BitVec.eq_of_toNat_eq
  rw [BitVec.toNat_eq] at hop hhigh hidx hlow hch hval
  simp only [opField_toNat, reservedHighField_toNat, idxField_toNat, reservedLowField_toNat, chField_toNat,
    valField_toNat] at hop hhigh hidx hlow hch hval
  omega

/-- A masked word is a pattern exactly when it is so field by field. -/
theorem masked_eq_iff_fields (w mask pattern : EventWord) :
    w &&& mask = pattern ↔
      opField w &&& opField mask = opField pattern ∧
      reservedHighField w &&& reservedHighField mask = reservedHighField pattern ∧
      idxField w &&& idxField mask = idxField pattern ∧
      reservedLowField w &&& reservedLowField mask = reservedLowField pattern ∧
      chField w &&& chField mask = chField pattern ∧ valField w &&& valField mask = valField pattern := by
  constructor
  · rintro rfl
    simp only [opField, reservedHighField, idxField, reservedLowField, chField, valField, BitVec.extractLsb'_and,
      and_self]
  · rintro ⟨hop, hhigh, hidx, hlow, hch, hval⟩
    apply eq_of_fields <;>
      simpa only [opField, reservedHighField, idxField, reservedLowField, chField, valField, BitVec.extractLsb'_and]

/-- No two rows of the opcode map have the same `OP`. -/
theorem opcodeRows_op_injective :
    ∀ row ∈ opcodeRows, ∀ other ∈ opcodeRows, opField row.matchBits = opField other.matchBits → row = other := by
  decide

/-- What the masks and the patterns of the rows have in common: every mask holds `OP` and the reserved bits, and every
pattern is 0 outside `OP`. -/
theorem opcodeRows_fields : ∀ row ∈ opcodeRows,
    opField row.mask = BitVec.allOnes 4 ∧ reservedHighField row.mask = BitVec.allOnes 12 ∧
    reservedLowField row.mask = BitVec.allOnes 6 ∧ reservedHighField row.matchBits = 0 ∧ idxField row.matchBits = 0 ∧
    reservedLowField row.matchBits = 0 ∧ chField row.matchBits = 0 ∧ valField row.matchBits = 0 := by
  decide

/-- A word matches a row exactly if it has the row's `OP`, its reserved bits are 0, and so are the other fields as far
as the row's mask holds them. -/
theorem masked_eq_matchBits_iff {row : OpcodeRow} (hrow : row ∈ opcodeRows) (w : EventWord) :
    w &&& row.mask = row.matchBits ↔
      opField w = opField row.matchBits ∧ reservedHighField w = 0 ∧ idxField w &&& idxField row.mask = 0 ∧
      reservedLowField w = 0 ∧ chField w &&& chField row.mask = 0 ∧ valField w &&& valField row.mask = 0 := by
  obtain ⟨hop, hhigh, hlow, phigh, pidx, plow, pch, pval⟩ := opcodeRows_fields row hrow
  rw [masked_eq_iff_fields, hop, hhigh, hlow, phigh, pidx, plow, pch, pval]
  simp only [BitVec.and_allOnes]

/-- A field the mask holds whole is 0. -/
theorem held_field_eq_zero_iff {n : Nat} {v mask : BitVec n} (hmask : mask = BitVec.allOnes n) :
    v &&& mask = 0 ↔ v.toNat = 0 := by
  rw [hmask, BitVec.and_allOnes, field_eq_zero_iff]

/-- A field the mask leaves out is free. -/
theorem free_field_eq_zero_iff {n : Nat} {v mask : BitVec n} (hmask : mask = 0) : v &&& mask = 0 ↔ True := by
  simp [hmask]

/-- A `CH` field is not 3 exactly if it is a colour's code (R64). -/
theorem ch_ne_three_iff (v : BitVec 2) : v ≠ 3#2 ↔ ∃ c : Colour, v.toNat = c.code := by
  constructor
  · intro h
    obtain ⟨h3, -⟩ | ⟨-, c, hc⟩ := colourOfCode_cases v.isLt
    · exact absurd (BitVec.eq_of_toNat_eq h3) h
    · exact ⟨c, colourOfCode_eq_some hc⟩
  · rintro ⟨c, hc⟩ rfl
    exact absurd c.code_lt (hc ▸ by decide)

/-- The row of the opcode map an event belongs to. -/
def rowOf : Instr → OpcodeRow
  | .tick => ⟨"tick", 0x0000000000000000#64, 0xFFFFFFFFFFFFFFFF#64, false⟩
  | .write _ _ => ⟨"write", 0x1000000000000000#64, 0xFFFF00FF00000000#64, false⟩
  | .read _ => ⟨"read", 0x2000000000000000#64, 0xFFFF00FFFFFFFFFF#64, false⟩
  | .readWire _ _ => ⟨"readwire", 0x3000000000000000#64, 0xFFFF00FCFFFFFFFF#64, true⟩
  | .reset => ⟨"reset", 0x4000000000000000#64, 0xFFFFFFFFFFFFFFFF#64, false⟩

theorem rowOf_mem (i : Instr) : rowOf i ∈ opcodeRows := by
  cases i <;> simp [rowOf, opcodeRows]

theorem rowOf_mnemonic (i : Instr) : (rowOf i).mnemonic = i.mnemonic := by
  cases i <;> rfl

theorem opField_rowOf (i : Instr) : (opField (rowOf i).matchBits).toNat = opPart i := by
  cases i <;> simp only [rowOf, opPart] <;> decide

/-- A word that a row accepts has the fields of an event of the row. -/
theorem hasFields_of_accepts {row : OpcodeRow} (hrow : row ∈ opcodeRows) {w : EventWord} (h : row.accepts w = true) :
    ∃ i : Instr, i.mnemonic = row.mnemonic ∧ HasFields w (opPart i) (idxPart i) (chPart i) (valPart i) := by
  rw [OpcodeRow.accepts, Bool.and_eq_true, beq_iff_eq, masked_eq_matchBits_iff hrow] at h
  obtain ⟨⟨hop, hhigh, hidx, hlow, hch, hval⟩, hch3⟩ := h
  rw [field_eq_zero_iff] at hhigh hlow
  simp only [opcodeRows, List.mem_cons, List.not_mem_nil, or_false] at hrow
  obtain rfl | rfl | rfl | rfl | rfl := hrow <;>
    simp (disch := decide) only [held_field_eq_zero_iff, free_field_eq_zero_iff] at hidx hch hval
  · exact ⟨.tick, rfl, (congrArg _ hop).trans (opField_rowOf .tick), hhigh, hidx, hlow, hch, hval⟩
  · exact ⟨.write (idxField w).toNat (valField w).toNat, rfl,
      (congrArg _ hop).trans (opField_rowOf (.write _ _)), hhigh, rfl, hlow, hch, rfl⟩
  · exact ⟨.read (idxField w).toNat, rfl,
      (congrArg _ hop).trans (opField_rowOf (.read _)), hhigh, rfl, hlow, hch, hval⟩
  · obtain ⟨c, hc⟩ := (ch_ne_three_iff (chField w)).mp (by simpa using hch3)
    exact ⟨.readWire (idxField w).toNat c, rfl,
      (congrArg _ hop).trans (opField_rowOf (.readWire _ _)), hhigh, rfl, hlow, hc, hval⟩
  · exact ⟨.reset, rfl, (congrArg _ hop).trans (opField_rowOf .reset), hhigh, hidx, hlow, hch, hval⟩

/-- A word with an event's fields is accepted by the event's row. -/
theorem rowOf_accepts {i : Instr} {w : EventWord} (h : HasFields w (opPart i) (idxPart i) (chPart i) (valPart i)) :
    (rowOf i).accepts w = true := by
  obtain ⟨hop, hhigh, hidx, hlow, hch, hval⟩ := h
  rw [← opField_rowOf, ← BitVec.toNat_eq] at hop
  rw [← field_eq_zero_iff] at hhigh hlow
  rw [OpcodeRow.accepts, Bool.and_eq_true, beq_iff_eq, masked_eq_matchBits_iff (rowOf_mem i)]
  refine ⟨⟨hop, hhigh, ?_⟩, ?_⟩
  · cases i <;> simp only [rowOf] <;>
      simp (disch := decide) only [held_field_eq_zero_iff, free_field_eq_zero_iff, true_and, and_true]
    case tick | reset => exact ⟨hidx, hlow, hch, hval⟩
    case write => exact ⟨hlow, hch⟩
    case read => exact ⟨hlow, hch, hval⟩
    case readWire => exact ⟨hlow, hval⟩
  · cases i with
    | readWire idx c => simp [(ch_ne_three_iff _).mpr ⟨c, hch⟩]
    | tick | write | read | reset => rfl

/-- Settles O6: both the decoder and the rows are read off the fields, and a row is found by its `OP`. -/
theorem decoderAgreesWithTheOpcodeMap : Obligations.DecoderAgreesWithTheOpcodeMap := by
  refine ⟨fun w i h => ?_, fun w row hrow h => ?_, fun w row hrow other hother h h' => ?_⟩
  · exact ⟨rowOf i, rowOf_mem i, rowOf_mnemonic i, rowOf_accepts ((decode_eq_event_iff_hasFields w i).mp h)⟩
  · obtain ⟨i, hmnemonic, hfields⟩ := hasFields_of_accepts hrow h
    exact ⟨i, (decode_eq_event_iff_hasFields w i).mpr hfields, hmnemonic⟩
  · have hop := ((masked_eq_matchBits_iff hrow w).mp h).1
    have hop' := ((masked_eq_matchBits_iff hother w).mp h').1
    exact opcodeRows_op_injective row hrow other hother (hop.symm.trans hop')

end Sys2Proof

/-! PROOF. One event and one step: what each answers, what it leaves unchanged, and when it fails
(spec/20_memory.md, 40_pwm_channel.md section 2 and 3, 41_led_controller.md section 1, 60_exceptions.md,
70_reset_and_hazards.md). All of it is read off `Effect` and `ItemEffect`. -/

namespace Sys2Proof.Machine

/-! ## One event's effect -/

/-- An index over 3 is the one cause of an error of an event (R123). -/
theorem Effect.index_of_isError {u v : UnitState} {e : Instr} {r : Response} (he : Effect u e v r)
    (herr : r.isError = true) :
    ∃ idx, 3 < idx ∧ ((∃ value, e = .write idx value) ∨ e = .read idx ∨ ∃ c, e = .readWire idx c) := by
  cases he with
  | tick | write | read | readWire | reset => cases herr
  | badWrite idx value h => exact ⟨idx, h, .inl ⟨value, rfl⟩⟩
  | badRead idx h => exact ⟨idx, h, .inr (.inl rfl)⟩
  | badReadWire idx c h => exact ⟨idx, h, .inr (.inr ⟨c, rfl⟩)⟩

/-- An event that is neither RESET nor a WRITE to a register leaves that register (R20). -/
theorem Effect.colour_eq {u v : UnitState} {e : Instr} {r : Response} (he : Effect u e v r) {k : Fin 4}
    (hreset : e ≠ .reset) (hwrite : ∀ value, e ≠ .write k.val value) : v.colour k = u.colour k := by
  cases he with
  | tick => exact u.advance_colour k
  | reset => exact absurd rfl hreset
  | write i value =>
    have hne : i ≠ k := fun h => hwrite value (by rw [h])
    exact u.setColour_colour_ne _ hne
  | read | readWire | badWrite | badRead | badReadWire => rfl

/-- An event's response depends on the registers and the wires only: no event reads a counter (R24). -/
theorem Effect.response_congr {u₁ u₂ v₁ v₂ : UnitState} {e : Instr} {r₁ r₂ : Response} (h₁ : Effect u₁ e v₁ r₁)
    (h₂ : Effect u₂ e v₂ r₂) (hcolour : u₁.ledColor = u₂.ledColor) (hwire : ∀ i c, u₁.wire i c = u₂.wire i c) :
    r₁ = r₂ := by
  cases h₁ with
  | tick =>
    have hsample : u₁.sample = u₂.sample := ext_channel fun i c => by simpa using hwire i c
    rw [hsample]
    exact (Effect.tick.unique h₂).2
  | write i value => exact ((Effect.write i value).unique h₂).2
  | read i =>
    have hreg : u₁.colour i = u₂.colour i := congrArg (fun p => p.get i) hcolour
    rw [hreg]
    exact ((Effect.read i).unique h₂).2
  | readWire i c =>
    rw [hwire i c]
    exact ((Effect.readWire i c).unique h₂).2
  | reset => exact (Effect.reset.unique h₂).2
  | badWrite idx value h => exact ((Effect.badWrite idx value h).unique h₂).2
  | badRead idx h => exact ((Effect.badRead idx h).unique h₂).2
  | badReadWire idx c h => exact ((Effect.badReadWire idx c h).unique h₂).2

/-! ## The results of the events -/

/-- Settles O11: the effect of TICK, with counters and wires read as numbers. -/
theorem tickSamplesThenAdvancesEveryCounter : Obligations.TickSamplesThenAdvancesEveryCounter := fun s =>
  ⟨_, s.unit.sample, Effect.tick.exec_eq, rfl, rfl, rfl, fun i c =>
    ⟨by rw [UnitState.advance_count, nextCount_toNat], by rw [UnitState.sample_channel, UnitState.wire_iff]⟩⟩

/-- Settles O12: the effect of WRITE is one `setColour`. -/
theorem writeStoresTheLow24Bits : Obligations.WriteStoresTheLow24Bits := fun s i value =>
  ⟨_, (Effect.write i value).exec_eq, by rw [UnitState.setColour_colour_self, storedColour_toNat],
    fun _ hk => s.unit.setColour_colour_ne _ hk.symm, s.unit.setColour_ctr i _, rfl, rfl⟩

/-- Settles O13: the effect of READ. -/
theorem readAnswersTheRegister : Obligations.ReadAnswersTheRegister := fun s i =>
  ⟨readValue (s.unit.colour i), readValue_toNat _, (Effect.read i).exec_eq⟩

/-- Settles O14: the effect of READ_WIRE. -/
theorem readWireAnswersTheComparison : Obligations.ReadWireAnswersTheComparison := fun s i c =>
  ⟨s.unit.wire i c, s.unit.wire_iff i c, (Effect.readWire i c).exec_eq⟩

/-- No count is below a threshold of 0. -/
theorem comparator_zero (k : Counter) : comparator k 0#8 = false := by
  rw [Bool.eq_false_iff, ne_eq, comparator_iff]
  exact Nat.not_lt_zero _

/-- The byte a colour selects of an empty register is 0. -/
theorem field_zero (c : Colour) : field 0#24 c = 0#8 := by
  cases c <;> decide

/-- Settles O15: the effect of RESET. -/
theorem resetClearsRegistersCountersAndWires : Obligations.ResetClearsRegistersCountersAndWires := by
  refine fun s => ⟨_, Effect.reset.exec_eq, rfl, rfl, fun i => ⟨?_, fun c => ⟨?_, ?_⟩⟩⟩
  · rw [UnitState.reset_colour]; rfl
  · rw [UnitState.reset_count]; rfl
  · rw [UnitState.wire, UnitState.threshold, UnitState.reset_colour, resetColour, field_zero, comparator_zero]

/-- Settles O16: the effect of RESET. -/
theorem constructionIsAReset : Obligations.ConstructionIsAReset := fun _ => ⟨_, Effect.reset.exec_eq, rfl⟩

/-- Settles O17: the effects of an index over 3. -/
theorem invalidIndexOnlyAnswersTheError : Obligations.InvalidIndexOnlyAnswersTheError := fun _ idx h =>
  ⟨fun value => (Effect.badWrite idx value h).exec_eq, (Effect.badRead idx h).exec_eq,
    fun c => (Effect.badReadWire idx c h).exec_eq⟩

/-- Settles O18: every event has an effect, and an erring one has a bad index. -/
theorem onlyInvalidIndexesFail : Obligations.OnlyInvalidIndexesFail := by
  intro s e
  obtain ⟨u, r, he, hx⟩ := exec_cases e s
  exact ⟨_, r, hx, rfl, he.index_of_isError⟩

/-- Settles O4: having no word is being ill-formed, and the effect of an event does not ask for a word. -/
theorem overWideEventsHaveNoWordAndStillRun : Obligations.OverWideEventsHaveNoWordAndStillRun := by
  have hwrite : ∀ idx value, encode (.write idx value) = none ↔ 255 < idx ∨ 2 ^ 32 ≤ value := fun idx value => by
    rw [encode_eq_none_iff, wellFormed_write_iff]; omega
  have hread : ∀ idx, encode (.read idx) = none ↔ 255 < idx := fun idx => by
    rw [encode_eq_none_iff, wellFormed_read_iff, not_le]
  have hwire : ∀ idx c, encode (.readWire idx c) = none ↔ 255 < idx := fun idx c => by
    rw [encode_eq_none_iff, wellFormed_readWire_iff, not_le]
  refine ⟨hwrite, hread, hwire, fun s i value _ => ?_, fun s idx value _ h => ?_, fun s idx h => ?_,
    fun s idx c h => ?_⟩
  · exact ⟨_, (Effect.write i value).exec_eq, by rw [UnitState.setColour_colour_self, storedColour_toNat], rfl⟩
  · exact (Effect.badWrite idx value h).exec_eq
  · exact (Effect.badRead idx (by have := (hread idx).mp h; omega)).exec_eq
  · exact (Effect.badReadWire idx c (by have := (hwire idx c).mp h; omega)).exec_eq

/-! ## Frames -/

/-- READ of any index leaves the unit (R46). -/
theorem exec_read_unit (s : State) (idx : Nat) :
    ∃ t, exec (.read idx) s = .next t ∧ t.unit = s.unit ∧ t.pending = s.pending := by
  obtain ⟨u, r, he, hx⟩ := exec_cases (.read idx) s
  refine ⟨_, hx, ?_, rfl⟩
  cases he <;> rfl

/-- READ_WIRE of any index leaves the unit (R46). -/
theorem exec_readWire_unit (s : State) (idx : Nat) (c : Colour) :
    ∃ t, exec (.readWire idx c) s = .next t ∧ t.unit = s.unit ∧ t.pending = s.pending := by
  obtain ⟨u, r, he, hx⟩ := exec_cases (.readWire idx c) s
  refine ⟨_, hx, ?_, rfl⟩
  cases he <;> rfl

/-- A second WRITE of the same value has no effect on the unit the first one leaves (R46). -/
theorem Effect.write_again {u v : UnitState} {idx value : Nat} {r : Response} (he : Effect u (.write idx value) v r) :
    Effect v (.write idx value) v r := by
  cases he with
  | write i value =>
    have hagain := Effect.write (u := u.setColour i (storedColour value)) i value
    rwa [UnitState.setColour_setColour] at hagain
  | badWrite idx value h => exact .badWrite idx value h

/-- Settles O19: reads leave the unit; a WRITE's frame is that of its effect, and its effect on what it leaves is none,
so the two states differ in their responses only. -/
theorem readsArePureAndWritesAreIdempotent : Obligations.ReadsArePureAndWritesAreIdempotent := by
  refine ⟨exec_read_unit, exec_readWire_unit, fun s idx value => ?_⟩
  obtain ⟨u, r, he, hx⟩ := exec_cases (.write idx value) s
  refine ⟨_, _, hx, Effect.exec_eq (s := ⟨u, s.pending, _⟩) he.write_again, ?_, fun k hk => ?_, rfl, fun evs => rfl⟩
  · exact ext_channel fun i c => he.count_eq nofun nofun i c
  · refine he.colour_eq nofun fun value' h => hk ?_
    injection h with hidx
    exact hidx.symm

/-- Settles O21: TICK advances every counter; the counters' frame and the congruence of responses are those of
`Effect`. -/
theorem countersAreWrittenByTickAndResetAndReadByNoEvent :
    Obligations.CountersAreWrittenByTickAndResetAndReadByNoEvent := by
  refine ⟨fun s t i c h => ?_, fun e s t h htick hreset => ?_, fun e s₁ s₂ hcolour hwire => ?_⟩
  · rw [unit_of_exec_tick h, UnitState.advance_count]
    exact nextCount_toNat _
  · obtain ⟨r, he, -, -⟩ := exec_next h
    exact ext_channel fun i c => he.count_eq htick hreset i c
  · obtain ⟨u₁, r₁, he₁, hx₁⟩ := exec_cases e s₁
    obtain ⟨u₂, r₂, he₂, hx₂⟩ := exec_cases e s₂
    obtain rfl := he₁.response_congr he₂ hcolour hwire
    exact ⟨_, _, r₁, hx₁, hx₂, rfl, rfl⟩

/-- Settles O22: the registers' frame of `Effect`. -/
theorem registersAreWrittenByWriteAndResetOnly : Obligations.RegistersAreWrittenByWriteAndResetOnly := by
  intro e s t h
  obtain ⟨r, he, hpending, -⟩ := exec_next h
  exact ⟨hpending, fun k => he.colour_eq⟩

/-! ## One step -/

theorem Applied.event?_word (w : EventWord) : (Applied.word w).event? = (decode w).event? := rfl

/-- Settles O7: the item stands for the event. -/
theorem stepRunsTheNextEvent : Obligations.StepRunsTheNextEvent := by
  refine ⟨fun s w rest i h hw => ?_, fun s rest i h => ?_⟩
  · rw [step_of_pending h, Applied.event?_word, hw]; rfl
  · rw [step_of_pending h]; rfl

/-- A word of 64 bits is the table's word of its own number. -/
theorem tableWord_toNat (w : EventWord) : tableWord 64 w.toNat = w := by
  rw [tableWord, Nat.mod_eq_of_lt w.isLt, BitVec.ofNat_toNat, BitVec.setWidth_eq]

/-- Settles O8: the placed word is the next item, and what stays pending is what was. -/
theorem placedWordRunsNext : Obligations.PlacedWordRunsNext := by
  intro s w i hw
  have hpending : (s.withFetchWord 64 w.toNat).pending = .word w :: s.pending := by
    rw [State.withFetchWord, tableWord_toNat]; rfl
  exact stepRunsTheNextEvent.1 _ w s.pending i hpending hw

/-- Settles O9: the item stands for no event. -/
theorem illegalWordOnlyAnswersTheError : Obligations.IllegalWordOnlyAnswersTheError := by
  intro s w rest why h hw
  rw [step_of_pending h, Applied.event?_word, hw]
  rfl

theorem step_of_no_pending {s : State} (h : s.pending = []) : step s = .fault .noEvent := by
  simp [step, State.fetch, h]

/-- Settles O10: a step with an item is as `step_cases` says, and without one it is the fault. -/
theorem everyAppliedItemCompletesInOneStep : Obligations.EveryAppliedItemCompletesInOneStep := by
  refine ⟨fun s a rest h => ?_, fun s => ⟨fun h => ?_, step_of_no_pending⟩, fun s r h => ?_⟩
  · obtain ⟨u, r, -, hx⟩ := step_cases h
    exact ⟨_, r, hx, rfl, rfl⟩
  · cases hp : s.pending with
    | nil => rfl
    | cons a rest =>
      obtain ⟨u, r, -, hx⟩ := step_cases hp
      exact nomatch hx.symm.trans h
  · cases hp : s.pending with
    | nil => exact nomatch (step_of_no_pending hp).symm.trans h
    | cons a rest =>
      obtain ⟨u, r', -, hx⟩ := step_cases hp
      exact nomatch hx.symm.trans h

end Sys2Proof.Machine

/-! PROOF. Runs (spec/10_state.md section 4, 20_memory.md section 4, 40_pwm_channel.md section 4, 60_exceptions.md).
What a list of items does is said once, by `RunEffect`, and each statement about runs is an induction over it. -/

namespace Sys2Proof.Machine

/-! ## The effect of a run -/

/-- What the applied items `evs` do to the unit, one after another, and the responses they give. -/
inductive RunEffect : UnitState → List Applied → UnitState → List Response → Prop
  | nil (u : UnitState) : RunEffect u [] u []
  | cons {u v w : UnitState} {a : Applied} {evs : List Applied} {r : Response} {new : List Response}
      (hitem : ItemEffect u a v r) (hrest : RunEffect v evs w new) : RunEffect u (a :: evs) w (r :: new)

/-- An applied item has exactly one effect. -/
theorem ItemEffect.unique {u v v' : UnitState} {a : Applied} {r r' : Response} (h : ItemEffect u a v r)
    (h' : ItemEffect u a v' r') : v = v' ∧ r = r' := by
  cases h with
  | event ha he =>
    cases h' with
    | event ha' he' =>
      obtain rfl := Option.some.inj (ha.symm.trans ha')
      exact he.unique he'
    | illegal ha' => exact nomatch ha.symm.trans ha'
  | illegal ha =>
    cases h' with
    | event ha' he' => exact nomatch ha.symm.trans ha'
    | illegal ha' => exact ⟨rfl, rfl⟩

/-- Every applied item has an effect on every unit state. -/
theorem exists_itemEffect (u : UnitState) (a : Applied) : ∃ v r, ItemEffect u a v r := by
  obtain ⟨v, r, he, -⟩ := step_cases (s := ⟨u, [a], []⟩) rfl
  exact ⟨v, r, he⟩

/-- An abstract event's effect is that of the item. -/
theorem Effect.item {u v : UnitState} {e : Instr} {r : Response} (he : Effect u e v r) :
    ItemEffect u (.event e) v r := .event rfl he

/-- Every run has an effect on every unit state. -/
theorem exists_runEffect (u : UnitState) (evs : List Applied) : ∃ v new, RunEffect u evs v new := by
  induction evs generalizing u with
  | nil => exact ⟨u, [], .nil u⟩
  | cons a evs ih =>
    obtain ⟨v, r, hitem⟩ := exists_itemEffect u a
    obtain ⟨w, new, hrest⟩ := ih v
    exact ⟨w, r :: new, .cons hitem hrest⟩

/-- `play` answers the effect a run has. -/
theorem RunEffect.play_eq {s : State} {evs : List Applied} {v : UnitState} {new : List Response}
    (h : RunEffect s.unit evs v new) :
    play evs s = .next { unit := v, pending := [], responses := s.responses ++ new } := by
  induction evs generalizing s new with
  | nil =>
    cases h
    rw [play_nil, List.append_nil]
    rfl
  | cons a evs ih =>
    cases h with
    | cons hitem hrest =>
      obtain ⟨u, r, hitem', hplay⟩ := play_cons a evs s
      obtain ⟨rfl, rfl⟩ := hitem.unique hitem'
      rw [hplay, ih (s := ⟨_, [], _⟩) hrest, List.append_assoc, List.singleton_append]

/-- The effect of two runs in a row. -/
theorem RunEffect.append {u v w : UnitState} {evs more : List Applied} {new new' : List Response}
    (h : RunEffect u evs v new) (h' : RunEffect v more w new') : RunEffect u (evs ++ more) w (new ++ new') := by
  induction h with
  | nil => exact h'
  | cons hitem _ ih => exact .cons hitem (ih h')

/-- The effect of one abstract event, as a run. -/
theorem Effect.run {u v : UnitState} {e : Instr} {r : Response} (he : Effect u e v r) :
    RunEffect u [.event e] v [r] := .cons he.item (.nil v)

/-! ## What a run leaves of a register (R49, R105) -/

theorem Applied.ne_reset_of_isReset {a : Applied} {e : Instr} (ha : a.event? = some e) (h : a.isReset = false) :
    e ≠ .reset := by
  rintro rfl
  simp [Applied.isReset, ha] at h

theorem Applied.ne_write_of_writesTo {a : Applied} {e : Instr} {i : Fin 4} (ha : a.event? = some e)
    (h : a.writesTo i = false) (value : Nat) : e ≠ .write i.val value := by
  rintro rfl
  simp [Applied.writesTo, ha] at h

/-- An item that neither writes register `i` nor resets leaves it. -/
theorem ItemEffect.colour_eq {u v : UnitState} {a : Applied} {r : Response} {i : Fin 4} (h : ItemEffect u a v r)
    (hwrites : a.writesTo i = false) (hreset : a.isReset = false) : v.colour i = u.colour i := by
  cases h with
  | illegal => rfl
  | event ha he => exact he.colour_eq (Applied.ne_reset_of_isReset ha hreset) (Applied.ne_write_of_writesTo ha hwrites)

/-- A run that neither writes register `i` nor resets leaves it. -/
theorem RunEffect.colour_eq {u v : UnitState} {evs : List Applied} {new : List Response} {i : Fin 4}
    (h : RunEffect u evs v new) (hall : ∀ a ∈ evs, a.writesTo i = false ∧ a.isReset = false) :
    v.colour i = u.colour i := by
  induction h with
  | nil => rfl
  | cons hitem _ ih =>
    rw [List.forall_mem_cons] at hall
    obtain ⟨⟨hwrites, hreset⟩, hrest⟩ := hall
    exact (ih hrest).trans (hitem.colour_eq hwrites hreset)

/-- After an event, a run that leaves register `i`, and a READ of it, the last response is what the event left there. -/
theorem play_event_then_read {s : State} {e : Instr} {u : UnitState} {r : Response} (he : Effect s.unit e u r)
    {i : Fin 4} {between : List Applied} (hall : ∀ a ∈ between, a.writesTo i = false ∧ a.isReset = false) :
    ∃ t, play (.event e :: between ++ [.event (.read i.val)]) s = .next t ∧
      t.responses.getLast? = some (.value (readValue (u.colour i))) := by
  obtain ⟨v, new, hrun⟩ := exists_runEffect u between
  refine ⟨_, ((RunEffect.cons he.item hrun).append (Effect.read i).run).play_eq, ?_⟩
  rw [← hrun.colour_eq hall, ← List.append_assoc, List.getLast?_concat]

/-- Settles O33: the READ answers what the WRITE left in the register. -/
theorem readAnswersTheLastWriteAcrossAnyEvents : Obligations.ReadAnswersTheLastWriteAcrossAnyEvents := by
  intro s i value between hall
  obtain ⟨t, hplay, hlast⟩ := play_event_then_read (Effect.write (u := s.unit) i value) hall
  refine ⟨t, _, hplay, hlast, ?_⟩
  rw [UnitState.setColour_colour_self, readValue_toNat, storedColour_toNat]

/-- Settles O34: the READ answers what the RESET left in the register. -/
theorem readBeforeAnyWriteAnswersTheResetValue : Obligations.ReadBeforeAnyWriteAnswersTheResetValue := by
  intro s i between hall
  obtain ⟨t, hplay, hlast⟩ := play_event_then_read (Effect.reset (u := s.unit)) hall
  rw [UnitState.reset_colour] at hlast
  exact ⟨t, hplay, hlast⟩

/-- Settles O24: the run leaves the value written in the register, and TICK, READ and READ_WIRE see the register. -/
theorem writesAreNeverSeenTorn : Obligations.WritesAreNeverSeenTorn := by
  intro s i value between hall
  obtain ⟨v, new, hrun⟩ := exists_runEffect (s.unit.setColour i (storedColour value)) between
  have hreg : (v.colour i).toNat = value % 2 ^ 24 := by
    rw [hrun.colour_eq hall, UnitState.setColour_colour_self, storedColour_toNat]
  refine ⟨_, (RunEffect.cons (Effect.write i value).item hrun).play_eq, ?_, ?_, fun c => ?_⟩
  · exact ⟨_, v.sample, Effect.tick.exec_eq, rfl, fun c => by rw [UnitState.sample_channel, UnitState.wire_iff, hreg]⟩
  · exact ⟨_, readValue (v.colour i), (Effect.read i).exec_eq, rfl, by rw [readValue_toNat, hreg]⟩
  · exact ⟨_, v.wire i c, (Effect.readWire i c).exec_eq, rfl, by rw [UnitState.wire_iff, hreg]⟩

/-- Settles O35: the two runs meet in the unit the second WRITE leaves. -/
theorem lastWriteWins : Obligations.LastWriteWins := by
  intro s i v₁ v₂ after
  obtain ⟨w, new, hrun⟩ := exists_runEffect (s.unit.setColour i (storedColour v₂)) after
  have hsecond := Effect.write (u := s.unit.setColour i (storedColour v₁)) i v₂
  rw [UnitState.setColour_setColour] at hsecond
  refine ⟨_, _, new, (RunEffect.cons (Effect.write i v₁).item (.cons hsecond.item hrun)).play_eq,
    (RunEffect.cons (Effect.write i v₂).item hrun).play_eq, rfl, ?_, ?_⟩
  · simp
  · simp

/-! ## Failing items (R120, R125) -/

/-- An item's response is an error exactly if the item is failing. -/
theorem ItemEffect.isError_eq {u v : UnitState} {a : Applied} {r : Response} (h : ItemEffect u a v r) :
    r.isError = a.failing := by
  cases h with
  | illegal ha => simp [Applied.failing, ha, Response.isError]
  | event ha he =>
    cases he with
    | tick | reset => simp [Applied.failing, ha, Response.isError]
    | write i | read i | readWire i =>
      have hi : ¬ 3 < i.val := by omega
      simp [Applied.failing, ha, Response.isError, hi]
    | badWrite _ _ hi | badRead _ hi | badReadWire _ _ hi => simp [Applied.failing, ha, Response.isError, hi]

/-- A response that is an error is all an item does. -/
theorem ItemEffect.unit_of_isError {u v : UnitState} {a : Applied} {r : Response} (h : ItemEffect u a v r)
    (herr : r.isError = true) : v = u := by
  cases h with
  | illegal => rfl
  | event ha he =>
    cases he with
    | tick | reset | write => cases herr
    | read | readWire | badWrite | badRead | badReadWire => rfl

/-- The run without its failing items: the same unit, and the responses without the errors. -/
theorem RunEffect.filter_failing {u v : UnitState} {evs : List Applied} {new : List Response}
    (h : RunEffect u evs v new) :
    RunEffect u (evs.filter fun a => !a.failing) v (new.filter fun r => !r.isError) := by
  induction h with
  | nil u => exact .nil u
  | @cons u w v a evs r new hitem _ ih =>
    cases herr : r.isError with
    | true =>
      obtain rfl := hitem.unit_of_isError herr
      have hfail : a.failing = true := hitem.isError_eq.symm.trans herr
      simpa [herr, hfail] using ih
    | false =>
      have hfail : a.failing = false := hitem.isError_eq.symm.trans herr
      simpa [herr, hfail] using RunEffect.cons hitem ih

/-- A run gives no error response exactly if none of its items is failing. -/
theorem RunEffect.all_not_isError_iff {u v : UnitState} {evs : List Applied} {new : List Response}
    (h : RunEffect u evs v new) :
    (new.all fun r => !r.isError) = true ↔ ∀ a ∈ evs, a.failing = false := by
  induction h with
  | nil => simp
  | cons hitem _ ih => simp only [List.all_cons, Bool.and_eq_true, Bool.not_eq_true', hitem.isError_eq, ih,
      List.forall_mem_cons]

/-- Settles O36: the effect of a run without its failing items. -/
theorem failingEventsLeaveNoTrace : Obligations.FailingEventsLeaveNoTrace := by
  intro s evs
  obtain ⟨v, new, hrun⟩ := exists_runEffect s.unit evs
  exact ⟨_, _, new, hrun.play_eq, hrun.filter_failing.play_eq, rfl, rfl, rfl⟩

/-- Settles O37: the responses of the run are error-free exactly if its items are. -/
theorem aRunIsErrorFreeExactlyWithoutFailingEvents : Obligations.ARunIsErrorFreeExactlyWithoutFailingEvents := by
  intro s evs hfree
  obtain ⟨v, new, hrun⟩ := exists_runEffect s.unit evs
  refine ⟨_, hrun.play_eq, ?_⟩
  rw [State.errorFree] at hfree ⊢
  rw [List.all_append, hfree, Bool.true_and, hrun.all_not_isError_iff]

/-! ## Registers learn nothing of the counters (R103) -/

/-- The responses are the same but for samples and wire levels. -/
def SameButWires (r r' : Response) : Prop := (∀ wires, r ≠ .sample wires) → (∀ b, r ≠ .bit b) → r = r'

/-- Two units with the same registers have the same registers after an event, and the same response but for samples and
wire levels. -/
theorem Effect.sameButWires {u₁ u₂ v₁ v₂ : UnitState} {e : Instr} {r₁ r₂ : Response} (h₁ : Effect u₁ e v₁ r₁)
    (h₂ : Effect u₂ e v₂ r₂) (hcolour : u₁.ledColor = u₂.ledColor) :
    v₁.ledColor = v₂.ledColor ∧ SameButWires r₁ r₂ := by
  have hsame (r : Response) : SameButWires r r := fun _ _ => rfl
  cases h₁ with
  | tick =>
    obtain ⟨rfl, rfl⟩ := Effect.tick.unique h₂
    exact ⟨hcolour, fun h => absurd rfl (h _)⟩
  | write i value =>
    obtain ⟨rfl, rfl⟩ := (Effect.write i value).unique h₂
    exact ⟨by simp only [UnitState.setColour, hcolour], hsame _⟩
  | read i =>
    obtain ⟨rfl, rfl⟩ := (Effect.read i).unique h₂
    have hreg : u₁.colour i = u₂.colour i := congrArg (fun p => p.get i) hcolour
    exact ⟨hcolour, hreg ▸ hsame _⟩
  | readWire i c =>
    obtain ⟨rfl, rfl⟩ := (Effect.readWire i c).unique h₂
    exact ⟨hcolour, fun _ h => absurd rfl (h _)⟩
  | reset =>
    obtain ⟨rfl, rfl⟩ := Effect.reset.unique h₂
    exact ⟨rfl, hsame _⟩
  | badWrite idx value h =>
    obtain ⟨rfl, rfl⟩ := (Effect.badWrite idx value h).unique h₂
    exact ⟨hcolour, hsame _⟩
  | badRead idx h =>
    obtain ⟨rfl, rfl⟩ := (Effect.badRead idx h).unique h₂
    exact ⟨hcolour, hsame _⟩
  | badReadWire idx c h =>
    obtain ⟨rfl, rfl⟩ := (Effect.badReadWire idx c h).unique h₂
    exact ⟨hcolour, hsame _⟩

/-- The same of an applied item. -/
theorem ItemEffect.sameButWires {u₁ u₂ v₁ v₂ : UnitState} {a : Applied} {r₁ r₂ : Response} (h₁ : ItemEffect u₁ a v₁ r₁)
    (h₂ : ItemEffect u₂ a v₂ r₂) (hcolour : u₁.ledColor = u₂.ledColor) :
    v₁.ledColor = v₂.ledColor ∧ SameButWires r₁ r₂ := by
  cases h₁ with
  | illegal ha =>
    obtain ⟨rfl, rfl⟩ := (ItemEffect.illegal ha).unique h₂
    exact ⟨hcolour, fun _ _ => rfl⟩
  | event ha he =>
    cases h₂ with
    | illegal ha' => exact nomatch ha.symm.trans ha'
    | event ha' he' =>
      obtain rfl := Option.some.inj (ha.symm.trans ha')
      exact he.sameButWires he' hcolour

/-- The same of a run. -/
theorem RunEffect.sameButWires {u₁ u₂ v₁ v₂ : UnitState} {evs : List Applied} {new₁ new₂ : List Response}
    (h₁ : RunEffect u₁ evs v₁ new₁) (h₂ : RunEffect u₂ evs v₂ new₂) (hcolour : u₁.ledColor = u₂.ledColor) :
    v₁.ledColor = v₂.ledColor ∧ List.Forall₂ SameButWires new₁ new₂ := by
  induction h₁ generalizing u₂ new₂ with
  | nil =>
    cases h₂
    exact ⟨hcolour, .nil⟩
  | cons hitem₁ _ ih =>
    cases h₂ with
    | cons hitem₂ hrest₂ =>
      obtain ⟨hmid, hr⟩ := hitem₁.sameButWires hitem₂ hcolour
      obtain ⟨hend, hnew⟩ := ih hrest₂ hmid
      exact ⟨hend, .cons hr hnew⟩

/-- Settles O38: the two runs' effects, and the responses already given, agree but for samples and wire levels. -/
theorem registersLearnNothingOfTheCounters : Obligations.RegistersLearnNothingOfTheCounters := by
  intro s₁ s₂ evs hcolour hresponses
  obtain ⟨v₁, new₁, hrun₁⟩ := exists_runEffect s₁.unit evs
  obtain ⟨v₂, new₂, hrun₂⟩ := exists_runEffect s₂.unit evs
  obtain ⟨hend, hnew⟩ := hrun₁.sameButWires hrun₂ hcolour
  have hall : List.Forall₂ SameButWires (s₁.responses ++ new₁) (s₂.responses ++ new₂) := by
    rw [hresponses]
    exact List.rel_append (List.forall₂_same.mpr fun _ _ _ _ => rfl) hnew
  refine ⟨_, _, hrun₁.play_eq, hrun₂.play_eq, hend, hall.length_eq, fun j r hr hsample hbit => ?_⟩
  obtain ⟨hj, rfl⟩ := List.getElem?_eq_some_iff.mp hr
  have hj₂ : j < (s₂.responses ++ new₂).length := hall.length_eq ▸ hj
  exact (List.getElem?_eq_getElem hj₂).trans (congrArg some (hall.get hj hj₂ hsample hbit).symm)

/-! ## Counters (R30) -/

/-- The twelve counters are equal exactly if each is the first. -/
theorem UnitState.countersAgree_iff (u : UnitState) : u.CountersAgree ↔ ∀ i c, u.count i c = u.count 0 .red := by
  constructor
  · intro h i c
    have hchannel := congrArg (fun p => channel p i c) h
    rwa [channel_perChannel] at hchannel
  · intro h
    exact ext_channel fun i c => by rw [channel_perChannel]; exact h i c

/-- Every event keeps the twelve counters equal (R30). -/
theorem Effect.countersAgree {u v : UnitState} {e : Instr} {r : Response} (he : Effect u e v r)
    (h : u.CountersAgree) : v.CountersAgree := by
  cases he with
  | tick =>
    rw [UnitState.countersAgree_iff] at h ⊢
    intro i c
    rw [UnitState.advance_count, UnitState.advance_count, h i c]
  | reset => rfl
  | write | read | readWire | badWrite | badRead | badReadWire => exact h

/-- Settles O31: an event's effect keeps the counters equal, and an illegal word leaves the unit. -/
theorem stepKeepsTheCountersEqual : Obligations.StepKeepsTheCountersEqual := by
  intro s t h hstep
  obtain ⟨a, r, -, hitem, -⟩ := step_next hstep
  generalize t.unit = v at hitem ⊢
  cases hitem with
  | event ha he => exact he.countersAgree h
  | illegal => exact h

/-- Settles O32: all are the reset value. -/
theorem countersAreEqualAtReset : Obligations.CountersAreEqualAtReset := rfl

/-- Every item but RESET advances a counter by one if it is a TICK, and by none if not. -/
theorem ItemEffect.count_toNat {u v : UnitState} {a : Applied} {r : Response} (h : ItemEffect u a v r)
    (hreset : a.isReset = false) (i : Fin 4) (c : Colour) :
    (v.count i c).toNat = ((u.count i c).toNat + if a.isTick then 1 else 0) % 4096 := by
  have hlt := u.count_lt_period i c
  have hsame : (u.count i c).toNat = ((u.count i c).toNat + 0) % 4096 := (Nat.mod_eq_of_lt hlt).symm
  cases h with
  | illegal ha => simpa [Applied.isTick, ha] using hsame
  | @event e _ _ ha he =>
    by_cases htick : e = .tick
    · subst htick
      obtain ⟨rfl, -⟩ := Effect.tick.unique he
      simp [Applied.isTick, ha, nextCount_toNat]
    · rw [he.count_eq htick (Applied.ne_reset_of_isReset ha hreset)]
      simpa [Applied.isTick, ha, htick] using hsame

/-- A run without a RESET advances every counter by the number of its TICKs. -/
theorem RunEffect.count_toNat {u v : UnitState} {evs : List Applied} {new : List Response} (h : RunEffect u evs v new)
    (hreset : ∀ a ∈ evs, a.isReset = false) (i : Fin 4) (c : Colour) :
    (v.count i c).toNat = ((u.count i c).toNat + evs.countP Applied.isTick) % 4096 := by
  induction h with
  | nil u => exact (Nat.mod_eq_of_lt (u.count_lt_period i c)).symm
  | cons hitem _ ih =>
    rw [List.forall_mem_cons] at hreset
    obtain ⟨hfirst, hrest⟩ := hreset
    rw [ih hrest, hitem.count_toNat hfirst, List.countP_cons]
    omega

/-- Settles O30: RESET leaves 0, and the rest counts the TICKs. -/
theorem countersCountTicksSinceReset : Obligations.CountersCountTicksSinceReset := by
  intro s evs hreset
  obtain ⟨v, new, hrun⟩ := exists_runEffect UnitState.reset evs
  refine ⟨_, (RunEffect.cons Effect.reset.item hrun).play_eq, fun i c => ?_⟩
  have hzero : (UnitState.reset.count i c).toNat = 0 := by rw [UnitState.reset_count]; rfl
  rw [hrun.count_toNat hreset, hzero, Nat.zero_add]

/-! ## TICKs in a row (R87 to R89) -/

/-- The samples of `n` TICKs in a row. -/
def tickSamples (u : UnitState) (n : Nat) : List Response :=
  (List.range n).map fun j => .sample (UnitState.advance^[j] u).sample

theorem tickSamples_succ (u : UnitState) (n : Nat) :
    tickSamples u (n + 1) = .sample u.sample :: tickSamples u.advance n := by
  simp [tickSamples, List.range_succ_eq_map, Function.comp_def]

/-- `n` TICKs in a row advance the unit `n` times. -/
theorem runEffect_ticks (u : UnitState) (n : Nat) :
    RunEffect u (List.replicate n (.event .tick)) (UnitState.advance^[n] u) (tickSamples u n) := by
  induction n generalizing u with
  | zero => exact .nil u
  | succ n ih =>
    rw [List.replicate_succ, Function.iterate_succ_apply, tickSamples_succ]
    exact .cons Effect.tick.item (ih u.advance)

theorem play_ticks (s : State) (n : Nat) :
    play (List.replicate n (.event .tick)) s =
      .next { unit := UnitState.advance^[n] s.unit, pending := [], responses := s.responses ++ tickSamples s.unit n } :=
  (runEffect_ticks s.unit n).play_eq

@[simp] theorem UnitState.iterate_advance_colour (u : UnitState) (n : Nat) (i : Fin 4) :
    (UnitState.advance^[n] u).colour i = u.colour i := by
  induction n generalizing u with
  | zero => rfl
  | succ n ih => rw [Function.iterate_succ_apply, ih, UnitState.advance_colour]

/-- `n` TICKs from a count, in closed form (R87). -/
theorem UnitState.iterate_advance_count_toNat (u : UnitState) (n : Nat) (i : Fin 4) (c : Colour) :
    ((UnitState.advance^[n] u).count i c).toNat = ((u.count i c).toNat + n) % 4096 := by
  induction n generalizing u with
  | zero => exact (Nat.mod_eq_of_lt (u.count_lt_period i c)).symm
  | succ n ih =>
    rw [Function.iterate_succ_apply, ih, UnitState.advance_count, nextCount_toNat]
    omega

/-- The sample of the TICK after `j` others, in closed form (R87). -/
theorem UnitState.iterate_advance_sample_iff (u : UnitState) (j : Nat) (i : Fin 4) (c : Colour) :
    channel (UnitState.advance^[j] u).sample i c = true ↔
      ((u.count i c).toNat + j) % 4096 < colourByte (u.colour i).toNat c := by
  rw [UnitState.sample_channel, UnitState.wire_iff, UnitState.iterate_advance_count_toNat,
    UnitState.iterate_advance_colour]

/-- Settles O28: the effect of `n` TICKs, whose samples are those of the units on the way. -/
theorem ticksFollowTheClosedForm : Obligations.TicksFollowTheClosedForm := by
  intro s n
  refine ⟨_, tickSamples s.unit n, play_ticks s n,
    PerLed.ext_get (s.unit.iterate_advance_colour n), rfl, s.unit.iterate_advance_count_toNat n, rfl, ?_,
    fun j hj => ⟨(UnitState.advance^[j] s.unit).sample, ?_, s.unit.iterate_advance_sample_iff j⟩⟩
  · rw [tickSamples, List.length_map, List.length_range]
  · rw [tickSamples, List.getElem?_map, List.getElem?_range hj]
    rfl

/-- A full period brings every counter back to where it was (R89). -/
theorem UnitState.iterate_advance_period (u : UnitState) : UnitState.advance^[4096] u = u := by
  refine UnitState.ext_access (u.iterate_advance_colour 4096) fun i c => BitVec.eq_of_toNat_eq ?_
  rw [UnitState.iterate_advance_count_toNat, Nat.add_mod_right]
  exact Nat.mod_eq_of_lt (u.count_lt_period i c)

/-- Over a full period from any count, the remainder is below a bound as often as the bound says (R88): a period is
counted alike from everywhere, and from 0 the remainders are the numbers themselves. -/
theorem count_period_below {n b : Nat} (k : Nat) (hb : b ≤ n) : n.count (fun j => (k + j) % n < b) = b := by
  have hshift := Nat.count_add (fun x => x % n < b) k n
  have hperiod := Nat.count_add (fun x => x % n < b) n k
  simp only [Nat.add_mod_left] at hperiod
  have hzero : n.count (fun x => x % n < b) = b := by
    have hrange : (Finset.range n).filter (fun x => x % n < b) = Finset.range b := by
      ext x
      simp only [Finset.mem_filter, Finset.mem_range]
      constructor
      · rintro ⟨hx, hlt⟩
        rwa [Nat.mod_eq_of_lt hx] at hlt
      · intro hx
        have hxn : x < n := by omega
        exact ⟨hxn, by rwa [Nat.mod_eq_of_lt hxn]⟩
    rw [Nat.count_eq_card_filter_range, hrange, Finset.card_range]
  rw [Nat.add_comm n k] at hperiod
  omega

theorem colourByte_lt (r : Nat) (c : Colour) : colourByte r c < 256 := by
  cases c <;> exact Nat.mod_lt _ (by decide)

/-- The samples that show a channel high, over a full period (R88). -/
theorem countP_tickSamples_period (u : UnitState) (i : Fin 4) (c : Colour) :
    (tickSamples u 4096).countP (Response.showsHigh i c) = colourByte (u.colour i).toNat c := by
  have hb : colourByte (u.colour i).toNat c ≤ 4096 := by have := colourByte_lt (u.colour i).toNat c; omega
  rw [tickSamples, List.countP_map]
  refine Eq.trans (List.countP_congr fun j _ => ?_) (count_period_below (u.count i c).toNat hb)
  rw [decide_eq_true_iff]
  exact u.iterate_advance_sample_iff j i c

/-- Settles O29: the unit after a period, and the count of the samples over one. -/
theorem dutyOverOnePeriodIsTheThreshold : Obligations.DutyOverOnePeriodIsTheThreshold := by
  intro s
  have hplay := play_ticks s 4096
  rw [UnitState.iterate_advance_period] at hplay
  exact ⟨_, _, hplay, rfl, rfl, countP_tickSamples_period s.unit⟩

end Sys2Proof.Machine

/-! PROOF. Thresholds and wires (spec/40_pwm_channel.md, 41_led_controller.md section 1), the other machines of the spec
(10_state.md R30, 40_pwm_channel.md R80, 70_reset_and_hazards.md R145), the bus side (20_memory.md) and the
pseudo-instructions (30_encoding.md R71). -/

namespace Sys2Proof.Machine

/-! ## Thresholds and wires -/

/-- The three bytes of a packed value (R71, R100). -/
theorem colourByte_packed {r g b : Nat} (hr : r ≤ 255) (hg : g ≤ 255) (hb : b ≤ 255) (c : Colour) :
    colourByte (r * 2 ^ 16 + g * 2 ^ 8 + b) c = (Rgb.mk r g b).get c := by
  cases c <;> simp only [colourByte, Rgb.get] <;> omega

/-- The fields of the register that stores a packed value. -/
theorem field_storedColour_packed {r g b : Nat} (hr : r ≤ 255) (hg : g ≤ 255) (hb : b ≤ 255) (c : Colour) :
    (field (storedColour (r * 2 ^ 16 + g * 2 ^ 8 + b)) c).toNat = (Rgb.mk r g b).get c := by
  have hlt : r * 2 ^ 16 + g * 2 ^ 8 + b < 2 ^ 24 := by omega
  rw [field_toNat, storedColour_toNat, Nat.mod_eq_of_lt hlt, colourByte_packed hr hg hb]

/-- A register is its three fields (R100). -/
theorem eq_of_field_eq {r r' : ColourReg} (h : ∀ c, field r c = field r' c) : r = r' := by
  have hbyte (c : Colour) : colourByte r.toNat c = colourByte r'.toNat c := by rw [← field_toNat, h, field_toNat]
  apply BitVec.eq_of_toNat_eq
  rw [eq_sum_colourByte_of_lt r.isLt, eq_sum_colourByte_of_lt r'.isLt, hbyte, hbyte, hbyte]

/-- The register whose fields are the three thresholds. -/
def registerOf (thr : Rgb Threshold) : ColourReg :=
  storedColour (thr.red.toNat * 2 ^ 16 + thr.green.toNat * 2 ^ 8 + thr.blue.toNat)

theorem field_registerOf (thr : Rgb Threshold) (c : Colour) : field (registerOf thr) c = thr.get c := by
  have hle (t : Threshold) : t.toNat ≤ 255 := Nat.le_of_lt_succ t.isLt
  apply BitVec.eq_of_toNat_eq
  rw [registerOf, field_storedColour_packed (hle _) (hle _) (hle _)]
  cases c <;> rfl

@[simp] theorem UnitState.thresholds_channel (u : UnitState) (i : Fin 4) (c : Colour) :
    channel u.thresholds i c = u.threshold i c := channel_perChannel _ _ _

/-- A threshold is a field of the register, whatever the counters. -/
theorem UnitState.threshold_mk (registers : PerLed ColourReg) (counters : PerLed (Rgb Counter)) (i : Fin 4)
    (c : Colour) : UnitState.threshold { ledColor := registers, ctr := counters } i c = field (registers.get i) c := rfl

/-- Settles O26: a register is its three fields, and any three bytes are those of a register. -/
theorem thresholdsAndRegistersAreInBijection : Obligations.ThresholdsAndRegistersAreInBijection := by
  intro counters
  constructor
  · intro registers registers' h
    refine PerLed.ext_get fun i => eq_of_field_eq fun c => ?_
    have hchannel := congrArg (fun p => channel p i c) h
    simpa only [UnitState.thresholds_channel, UnitState.threshold_mk] using hchannel
  · intro thr
    refine ⟨PerLed.ofFn fun i => registerOf (thr.get i), ext_channel fun i c => ?_⟩
    rw [UnitState.thresholds_channel, UnitState.threshold_mk, PerLed.get_ofFn, field_registerOf]
    rfl

/-- A wire is high exactly when its counter is below its threshold (R82). -/
theorem UnitState.wire_iff_threshold (u : UnitState) (i : Fin 4) (c : Colour) :
    u.wire i c = true ↔ (u.count i c).toNat < (u.threshold i c).toNat := comparator_iff _ _

/-- A count is below a threshold exactly when its high four bits are 0 and its low eight are below it: a threshold has
eight bits. -/
theorem count_lt_threshold_iff (k : Counter) (t : Threshold) :
    k.toNat < t.toNat ↔ k.extractLsb' 8 4 = 0#4 ∧ (k.extractLsb' 0 8).toNat < t.toNat := by
  have hk := k.isLt
  have ht := t.isLt
  rw [BitVec.toNat_eq, BitVec.extractLsb'_toNat, BitVec.extractLsb'_toNat, Nat.shiftRight_eq_div_pow,
    Nat.shiftRight_zero, BitVec.toNat_ofNat]
  omega

/-- Settles O27: the comparison, with the counter cut into its high four bits and its low eight. -/
theorem wireIsHighOnlyInTheFirstSubBlock : Obligations.WireIsHighOnlyInTheFirstSubBlock := by
  intro u i c
  refine ⟨(u.wire_iff_threshold i c).trans (count_lt_threshold_iff _ _), fun hcount => ?_, fun hthr => ?_⟩
  · have ht := (u.threshold i c).isLt
    rw [Bool.eq_false_iff, ne_eq, UnitState.wire_iff_threshold]
    omega
  · rw [UnitState.wire, hthr, comparator_zero]

/-! ## One shared counter (R30) -/

@[simp] theorem SharedUnit.expand_colour (v : SharedUnit) (i : Fin 4) : v.expand.colour i = v.ledColor.get i := rfl

@[simp] theorem SharedUnit.expand_count (v : SharedUnit) (i : Fin 4) (c : Colour) : v.expand.count i c = v.count :=
  channel_perChannel _ _ _

theorem SharedUnit.expand_wire (v : SharedUnit) (i : Fin 4) (c : Colour) :
    v.expand.wire i c = comparator v.count (field (v.ledColor.get i) c) := by
  rw [UnitState.wire, UnitState.threshold, SharedUnit.expand_count, SharedUnit.expand_colour]

theorem SharedUnit.expand_sample (v : SharedUnit) :
    v.expand.sample = perChannel fun k c => comparator v.count (field (v.ledColor.get k) c) :=
  ext_channel fun i c => by rw [UnitState.sample_channel, channel_perChannel, SharedUnit.expand_wire]

/-- The one counter advanced is the twelve counters advanced. -/
theorem SharedUnit.expand_advance (v : SharedUnit) :
    v.expand.advance = SharedUnit.expand { v with count := nextCount v.count } := by
  refine UnitState.ext_access (fun i => rfl) fun i c => ?_
  rw [UnitState.advance_count, SharedUnit.expand_count, SharedUnit.expand_count]

/-- The one-counter machine does what the unit it stands for does. -/
theorem SharedUnit.effect_expand (v : SharedUnit) (e : Instr) :
    Effect v.expand e (sharedApply e v).1.expand (sharedApply e v).2 := by
  cases e with
  | tick =>
    have htick := Effect.tick (u := v.expand)
    rwa [SharedUnit.expand_advance, SharedUnit.expand_sample] at htick
  | reset => exact .reset
  | write idx value =>
    obtain ⟨k, rfl, hk⟩ | ⟨h, hnone⟩ := ledOf?_cases idx
    · simp only [sharedApply, hk]
      exact .write k value
    · simp only [sharedApply, hnone]
      exact .badWrite idx value h
  | read idx =>
    obtain ⟨k, rfl, hk⟩ | ⟨h, hnone⟩ := ledOf?_cases idx
    · simp only [sharedApply, hk]
      exact .read k
    · simp only [sharedApply, hnone]
      exact .badRead idx h
  | readWire idx c =>
    obtain ⟨k, rfl, hk⟩ | ⟨h, hnone⟩ := ledOf?_cases idx
    · simp only [sharedApply, hk, ← SharedUnit.expand_wire]
      exact .readWire k c
    · simp only [sharedApply, hnone]
      exact .badReadWire idx c h

/-- Settles O39: the one-counter machine's step is the effect on the unit it stands for. -/
theorem oneSharedCounterIsARefinement : Obligations.OneSharedCounterIsARefinement := by
  intro e v s hs
  have he := v.effect_expand e
  rw [← hs] at he
  exact ⟨_, he.exec_eq, rfl, rfl⟩

/-! ## A copy of the threshold taken at each tick (R80, D8) -/

/-- The sample of the copying machine, which copies before it compares, is the unit's. -/
theorem UnitState.sample_eq_of_thresholds (u : UnitState) :
    u.sample = perChannel fun k c => comparator (u.count k c) (channel u.thresholds k c) :=
  ext_channel fun i c => by rw [UnitState.sample_channel, channel_perChannel, UnitState.thresholds_channel]; rfl

/-- With a current copy, comparing with the copy is comparing with the register. -/
theorem CopyUnit.wire_of_current {v : CopyUnit} (h : v.current) (k : Fin 4) (c : Colour) :
    comparator (v.unit.count k c) (channel v.copied k c) = v.unit.wire k c := by
  rw [h, UnitState.thresholds_channel]
  rfl

/-- The copying machine beside an event's effect on its unit: its unit is the effect's, and so is its response unless it
is a READ_WIRE with a stale copy; and when its copy is current after the event. -/
theorem copyApply_of_effect {v : CopyUnit} {e : Instr} {u : UnitState} {r : Response} (he : Effect v.unit e u r) :
    (copyApply e v).1.unit = u ∧
      ((∀ idx c, e ≠ .readWire idx c) ∨ v.current → (copyApply e v).2 = r) ∧
      (e = .tick ∨ e = .reset → (copyApply e v).1.current) ∧
      (v.current → (∀ idx value, e ≠ .write idx value) → (copyApply e v).1.current) := by
  cases he with
  | tick => exact ⟨rfl, fun _ => congrArg _ v.unit.sample_eq_of_thresholds.symm, fun _ => rfl, fun _ _ => rfl⟩
  | reset => exact ⟨rfl, fun _ => rfl, fun _ => rfl, fun _ _ => rfl⟩
  | write k value =>
    simp only [copyApply, ledOf?_val]
    exact ⟨trivial, fun _ => trivial, nofun, fun _ h => absurd rfl (h _ _)⟩
  | read k =>
    simp only [copyApply, ledOf?_val]
    exact ⟨trivial, fun _ => trivial, nofun, fun h _ => h⟩
  | readWire k c =>
    simp only [copyApply, ledOf?_val]
    refine ⟨trivial, ?_, nofun, fun h _ => h⟩
    rintro (h | h)
    · exact absurd rfl (h _ _)
    · rw [CopyUnit.wire_of_current h]
  | badWrite idx value hi =>
    simp only [copyApply, ledOf?_of_gt hi]
    exact ⟨trivial, fun _ => trivial, nofun, fun h _ => h⟩
  | badRead idx hi =>
    simp only [copyApply, ledOf?_of_gt hi]
    exact ⟨trivial, fun _ => trivial, nofun, fun h _ => h⟩
  | badReadWire idx c hi =>
    simp only [copyApply, ledOf?_of_gt hi]
    exact ⟨trivial, fun _ => trivial, nofun, fun h _ => h⟩

/-- Settles O40: every event has an effect, and the copying machine follows it. -/
theorem copyingTheThresholdAtEachTickAgrees : Obligations.CopyingTheThresholdAtEachTickAgrees := by
  intro e v s hs
  obtain ⟨u, r, he, hx⟩ := exec_cases e s
  rw [hs] at he
  obtain ⟨hunit, hresponse, hcopied, hkept⟩ := copyApply_of_effect he
  exact ⟨_, r, hx, rfl, hunit.symm, hresponse, hcopied, hkept⟩

/-! ## One clock edge (R145, D18) -/

/-- Settles O41: the edge's next state is written out as that of TICK and WRITE is. -/
theorem aClockEdgeIsTickThenWrite : Obligations.AClockEdgeIsTickThenWrite := by
  refine ⟨fun s i value => ?_, fun s => ⟨_, Effect.tick.exec_eq, rfl, rfl⟩⟩
  exact ⟨_, (RunEffect.cons Effect.tick.item (Effect.write i value).run).play_eq, rfl, rfl⟩

/-! ## The bus side (R41 to R45, D9, D10) -/

/-- Different addresses: the address of register `i` is that of register `i` alone. -/
theorem registerAt?_ledColorAddr {p : Config.Params} (hp : addressesDistinct p) (i : Fin 4) :
    registerAt? p (ledColorAddr p i) = some i := by
  simp only [addressesDistinct, List.nodup_cons, List.mem_cons, List.not_mem_nil, or_false, not_or] at hp
  obtain ⟨⟨h01, h02, h03⟩, ⟨h12, h13⟩, h23, -⟩ := hp
  fin_cases i
  · simp [registerAt?, ledColorAddr]
  · simp [registerAt?, ledColorAddr, Ne.symm h01]
  · simp [registerAt?, ledColorAddr, Ne.symm h02, Ne.symm h12]
  · simp [registerAt?, ledColorAddr, Ne.symm h03, Ne.symm h13, Ne.symm h23]

theorem registerAt?_eq_none {p : Config.Params} {addr : Nat} (h : ∀ i, addr ≠ ledColorAddr p i) :
    registerAt? p addr = none := by
  have h0 : addr ≠ p.ledColorAddr0 := h 0
  have h1 : addr ≠ p.ledColorAddr1 := h 1
  have h2 : addr ≠ p.ledColorAddr2 := h 2
  have h3 : addr ≠ p.ledColorAddr3 := h 3
  simp [registerAt?, h0, h1, h2, h3]

/-- Settles O42: the register at each address, and the size of the access. -/
theorem busAccessesAreWholeRegisterEvents : Obligations.BusAccessesAreWholeRegisterEvents := by
  intro p hp
  refine ⟨fun i value => ?_, fun i bytes value hbytes => ?_, fun addr bytes value h => ?_⟩
  · simp [busEvent, wholeRegisterOnly, registerAt?_ledColorAddr hp, registerBytes]
  · simp [busEvent, wholeRegisterOnly, registerAt?_ledColorAddr hp, registerBytes, hbytes]
  · simp [busEvent, wholeRegisterOnly, registerAt?_eq_none h]

/-! ## `setrgb` and `off` (R71) -/

/-- Two bytes and one more, shifted to their places: or-ing them is adding them. -/
theorem shiftLeft_or_eq_packed {g b : Nat} (r : Nat) (hg : g ≤ 255) (hb : b ≤ 255) :
    (r <<< 16) ||| (g <<< 8) ||| b = r * 2 ^ 16 + g * 2 ^ 8 + b := by
  have hlow : (g <<< 8) ||| b = g * 2 ^ 8 + b := by
    rw [← Nat.shiftLeft_add_eq_or_of_lt (by omega), Nat.shiftLeft_eq]
  rw [Nat.or_assoc, hlow, ← Nat.shiftLeft_add_eq_or_of_lt (by omega), Nat.shiftLeft_eq, Nat.add_assoc]

theorem expandSetrgb_of_le (idx : Nat) {r g b : Nat} (hr : r ≤ 255) (hg : g ≤ 255) (hb : b ≤ 255) :
    expandSetrgb idx r g b = some [.write idx (r * 2 ^ 16 + g * 2 ^ 8 + b)] := by
  rw [expandSetrgb, if_pos ⟨hr, hg, hb⟩, shiftLeft_or_eq_packed r hg hb]

theorem expandSetrgb_of_gt (idx : Nat) {r g b : Nat} (h : 255 < r ∨ 255 < g ∨ 255 < b) :
    expandSetrgb idx r g b = none := by
  rw [expandSetrgb, if_neg (by omega)]

/-- Settles O43: the WRITE of each stores the packed value, whose bytes are the components. -/
theorem setrgbAndOffSetTheThresholds : Obligations.SetrgbAndOffSetTheThresholds := by
  refine ⟨fun idx r g b => expandSetrgb_of_le idx, fun idx r g b => expandSetrgb_of_gt idx, fun _ => rfl,
    fun s i r g b hr hg hb => ?_, fun s i => ?_⟩
  · have hthr (c : Colour) :
        ((s.unit.setColour i (storedColour (r * 2 ^ 16 + g * 2 ^ 8 + b))).threshold i c).toNat =
          (Rgb.mk r g b).get c := by
      rw [UnitState.threshold, UnitState.setColour_colour_self, field_storedColour_packed hr hg hb]
    exact ⟨_, _, expandSetrgb_of_le i.val hr hg hb, (Effect.write i _).exec_eq, hthr .red, hthr .green, hthr .blue⟩
  · refine ⟨_, _, rfl, (Effect.write i 0).exec_eq, fun counters c => ?_⟩
    have hthr : (s.unit.setColour i (storedColour 0)).threshold i c = 0#8 := by
      rw [UnitState.threshold, UnitState.setColour_colour_self]
      exact field_zero c
    exact (congrArg _ hthr).trans (comparator_zero _)

end Sys2Proof.Machine

/-! PROOF. The text of an event assembles to its word (spec/30_encoding.md R70): a number's decimal text reads as the
number, and a line falls apart into the words it was put together from. -/

namespace Sys2Proof.Machine

/-! ## Decimal numbers -/

theorem decimalDigit?_digitChar {d : Nat} (h : d < 10) : decimalDigit? (digitChar d) = some d := by
  revert d
  decide

/-- The digits of a number read as the number, whatever comes after them. -/
theorem readDigits_decimalDigits {bound n : Nat} (h : n < bound) (after : Text) :
    readDigits 10 decimalDigit? 0 (decimalDigits bound n after) = readDigits 10 decimalDigit? n after := by
  induction bound generalizing n after with
  | zero => exact absurd h (Nat.not_lt_zero n)
  | succ bound ih =>
    rw [decimalDigits]
    split
    · next hlt => simp only [readDigits, decimalDigit?_digitChar hlt, Nat.zero_mul, Nat.zero_add]
    · next hge =>
      have hbound : n / 10 < bound := by omega
      have hdigit : n % 10 < 10 := Nat.mod_lt n (by decide)
      simp only [ih hbound, readDigits, decimalDigit?_digitChar hdigit, Nat.div_add_mod']

/-- What holds of every digit and of the text after holds of the digits of a number before that text. -/
theorem forall_mem_decimalDigits {P : Char → Prop} (hdigit : ∀ d < 10, P (digitChar d)) (bound n : Nat) {after : Text}
    (hafter : ∀ ch ∈ after, P ch) : ∀ ch ∈ decimalDigits bound n after, P ch := by
  induction bound generalizing n after with
  | zero => exact hafter
  | succ bound ih =>
    rw [decimalDigits]
    split
    · next hlt => exact List.forall_mem_cons.mpr ⟨hdigit n hlt, hafter⟩
    · exact ih _ (List.forall_mem_cons.mpr ⟨hdigit _ (Nat.mod_lt n (by decide)), hafter⟩)

/-- What holds of every digit holds of every character of a number's text. -/
theorem forall_mem_decimalText {P : Char → Prop} (hdigit : ∀ d < 10, P (digitChar d)) (n : Nat) :
    ∀ ch ∈ decimalText n, P ch :=
  forall_mem_decimalDigits hdigit _ _ (List.forall_mem_nil P)

theorem decimalDigits_ne_nil (bound n : Nat) {after : Text} (h : bound ≠ 0 ∨ after ≠ []) :
    decimalDigits bound n after ≠ [] := by
  induction bound generalizing n after with
  | zero => exact h.resolve_left (fun h => h rfl)
  | succ bound ih =>
    rw [decimalDigits]
    split
    · exact List.cons_ne_nil _ _
    · exact ih _ (.inr (List.cons_ne_nil _ _))

theorem decimalText_ne_nil (n : Nat) : decimalText n ≠ [] :=
  decimalDigits_ne_nil _ _ (.inl (Nat.succ_ne_zero n))

theorem decimal?_decimalText (n : Nat) : decimal? (decimalText n) = some n := by
  rw [decimal?, if_neg (by simpa using decimalText_ne_nil n), decimalText,
    readDigits_decimalDigits (Nat.lt_succ_self n)]
  rfl

/-- A text without an `x` is no hexadecimal number. -/
theorem hexDigits?_eq_none {t : Text} (h : ∀ ch ∈ t, ch ≠ 'x') : hexDigits? t = none := by
  unfold hexDigits?
  split
  · exact absurd rfl (h 'x' (by simp))
  · rfl

theorem number?_decimalText (n : Nat) : number? (decimalText n) = some n := by
  have hx : ∀ ch ∈ decimalText n, ch ≠ 'x' := forall_mem_decimalText (by decide) n
  rw [number?, hexDigits?_eq_none hx]
  exact decimal?_decimalText n

theorem colourLetter?_colourLetter (c : Colour) : colourLetter? [colourLetter c] = some c := by
  cases c <;> rfl

/-! ## The words of a line -/

/-- The character belongs to a word: it is no blank, no comma and no start of a comment. -/
def IsWordChar (ch : Char) : Prop := (ch == ';') = false ∧ isBlank ch = false ∧ (ch == ',') = false

/-- The text can stand as a word of a line. -/
def IsWord (w : Text) : Prop := w ≠ [] ∧ ∀ ch ∈ w, IsWordChar ch

theorem isWord_decimalText (n : Nat) : IsWord (decimalText n) :=
  ⟨decimalText_ne_nil n, forall_mem_decimalText (by unfold IsWordChar; decide) n⟩

theorem isWord_colourLetter (c : Colour) : IsWord [colourLetter c] := by
  cases c <;> simp [IsWord, IsWordChar, isBlank, colourLetter]

/-- The characters of a word are gathered. -/
theorem lineWords_append {w : Text} (hw : ∀ ch ∈ w, IsWordChar ch) (rest gathered : Text) :
    lineWords (w ++ rest) gathered = lineWords rest (w.reverse ++ gathered) := by
  induction w generalizing gathered with
  | nil => rfl
  | cons ch w ih =>
    rw [List.forall_mem_cons] at hw
    obtain ⟨⟨hcomment, hblank, hcomma⟩, hrest⟩ := hw
    simp [lineWords, hcomment, hblank, hcomma, ih hrest]

theorem pushWord_reverse {w : Text} (hw : w ≠ []) (rest : List Text) : pushWord w.reverse rest = w :: rest := by
  simp [pushWord, hw]

/-- A word at the end of a line. -/
theorem lineWords_word {w : Text} (hw : IsWord w) : lineWords w [] = [w] := by
  have h := lineWords_append hw.2 [] []
  rw [List.append_nil, List.append_nil] at h
  rw [h, lineWords, pushWord_reverse hw.1]

/-- A word before a blank. -/
theorem lineWords_word_blank {w : Text} (hw : IsWord w) (rest : Text) :
    lineWords (w ++ ' ' :: rest) [] = w :: lineWords rest [] := by
  rw [lineWords_append hw.2, List.append_nil]
  exact pushWord_reverse hw.1 _

/-- A word before a comma and a blank. -/
theorem lineWords_word_comma_blank {w : Text} (hw : IsWord w) (rest : Text) :
    lineWords (w ++ ',' :: ' ' :: rest) [] = w :: [','] :: lineWords rest [] := by
  rw [lineWords_append hw.2, List.append_nil]
  exact pushWord_reverse hw.1 _

theorem lineWords_one_operand {name a : Text} (hname : IsWord name) (ha : IsWord a) :
    lineWords (name ++ ' ' :: a) [] = [name, a] := by
  rw [lineWords_word_blank hname, lineWords_word ha]

theorem lineWords_two_operands {name a b : Text} (hname : IsWord name) (ha : IsWord a) (hb : IsWord b) :
    lineWords (name ++ ' ' :: a ++ ',' :: ' ' :: b) [] = [name, a, [','], b] := by
  rw [List.append_assoc, List.cons_append, lineWords_word_blank hname, lineWords_word_comma_blank ha,
    lineWords_word hb]

theorem isWord_names : IsWord wordRead ∧ IsWord wordWrite ∧ IsWord wordReadwire := by
  simp [IsWord, IsWordChar, isBlank, wordRead, wordWrite, wordReadwire]

/-! ## The line of an event -/

theorem assembleLine_one_operand {name a : Text} (hname : IsWord name) (ha : IsWord a) :
    assembleLine (name ++ ' ' :: a) = assembleOne name a := by
  rw [assembleLine, lineWords_one_operand hname ha]

theorem assembleLine_two_operands {name a b : Text} (hname : IsWord name) (ha : IsWord a) (hb : IsWord b) :
    assembleLine (name ++ ' ' :: a ++ ',' :: ' ' :: b) = assembleTwo name a b := by
  rw [assembleLine, lineWords_two_operands hname ha hb]
  rfl

/-- The line of an event assembles to what the event encodes to. -/
theorem assembleLine_eventText (i : Instr) : assembleLine (eventText i) = encodeAll [i] := by
  obtain ⟨hread, hwrite, hreadwire⟩ := isWord_names
  cases i with
  | tick => decide
  | reset => decide
  | write idx value =>
    rw [eventText, assembleLine_two_operands hwrite (isWord_decimalText idx) (isWord_decimalText value), assembleTwo,
      if_pos rfl, decimal?_decimalText, number?_decimalText]
    rfl
  | read idx =>
    rw [eventText, assembleLine_one_operand hread (isWord_decimalText idx), assembleOne, if_neg (by decide), if_pos rfl,
      decimal?_decimalText]
    rfl
  | readWire idx c =>
    rw [eventText, assembleLine_two_operands hreadwire (isWord_decimalText idx) (isWord_colourLetter c), assembleTwo,
      if_neg (by decide), if_pos rfl, decimal?_decimalText, colourLetter?_colourLetter]
    rfl

/-- Settles O44: a well-formed event has a word, and its line assembles to what the event encodes to. -/
theorem eventTextAssemblesToItsWord : Obligations.EventTextAssemblesToItsWord := by
  intro i hwf
  have hword : encode i = some (encodeWord i) := (encode_eq_some_iff i _).mpr ⟨hwf, rfl⟩
  refine ⟨encodeWord i, hword, ?_⟩
  rw [assembleLine_eventText, encodeAll, hword]
  rfl

end Sys2Proof.Machine
